-- ==== Sys2Proof/Word.lean ====
section
/-! DEFINITION. The word types of the block: 32-bit values (00_scope.md R13), bytes (10_state.md R32) and register
numbers (10_state.md R21, the 5-bit fields of 30_encoding.md R72). -/

namespace Sys2Proof

/-- A register, PC or address value: 32 bits (00_scope.md R13). -/
abbrev Word := BitVec 32

/-- The smallest addressable unit of memory (10_state.md R32). -/
abbrev Byte := BitVec 8

/-- A register number 0 to 31, as its 5-bit field (10_state.md R21, 30_encoding.md R72). -/
abbrev Reg := BitVec 5

end Sys2Proof
end

