-- ==== Sys2Proof/Syntax.lean ====
section
/-! DEFINITION. The instructions of the block: one constructor per row of spec/opcode_table.json. Operands stand in the
assembler order of 30_encoding.md R93. An immediate is held as the bits its format encodes: 12 bits for I and S (R81, R82),
13 and 21 bits with bit 0 for B and J (R83, R85), inst[31:12] for U (R84, R97), 5 bits for a shift amount (R86). -/

namespace Sys2Proof

/-- One instruction of opcode_table.json with its operands. -/
inductive Instr where
  /-- ADDI (R117). -/
  | addi (rd rs1 : Reg) (imm : BitVec 12)
  /-- SLTI (R118). -/
  | slti (rd rs1 : Reg) (imm : BitVec 12)
  /-- SLTIU (R119). -/
  | sltiu (rd rs1 : Reg) (imm : BitVec 12)
  /-- XORI (R120). -/
  | xori (rd rs1 : Reg) (imm : BitVec 12)
  /-- ORI (R121). -/
  | ori (rd rs1 : Reg) (imm : BitVec 12)
  /-- ANDI (R122). -/
  | andi (rd rs1 : Reg) (imm : BitVec 12)
  /-- SLLI (R123). -/
  | slli (rd rs1 : Reg) (shamt : BitVec 5)
  /-- SRLI (R124). -/
  | srli (rd rs1 : Reg) (shamt : BitVec 5)
  /-- SRAI (R125). -/
  | srai (rd rs1 : Reg) (shamt : BitVec 5)
  /-- ADD (R128). -/
  | add (rd rs1 rs2 : Reg)
  /-- SUB (R129). -/
  | sub (rd rs1 rs2 : Reg)
  /-- SLL (R130). -/
  | sll (rd rs1 rs2 : Reg)
  /-- SLT (R131). -/
  | slt (rd rs1 rs2 : Reg)
  /-- SLTU (R132). -/
  | sltu (rd rs1 rs2 : Reg)
  /-- XOR (R133). -/
  | xor (rd rs1 rs2 : Reg)
  /-- SRL (R134). -/
  | srl (rd rs1 rs2 : Reg)
  /-- SRA (R135). -/
  | sra (rd rs1 rs2 : Reg)
  /-- OR (R136). -/
  | or (rd rs1 rs2 : Reg)
  /-- AND (R137). -/
  | and (rd rs1 rs2 : Reg)
  /-- LB (R140). -/
  | lb (rd rs1 : Reg) (imm : BitVec 12)
  /-- LH (R141). -/
  | lh (rd rs1 : Reg) (imm : BitVec 12)
  /-- LW (R142). -/
  | lw (rd rs1 : Reg) (imm : BitVec 12)
  /-- LBU (R143). -/
  | lbu (rd rs1 : Reg) (imm : BitVec 12)
  /-- LHU (R144). -/
  | lhu (rd rs1 : Reg) (imm : BitVec 12)
  /-- SB (R148). -/
  | sb (rs2 rs1 : Reg) (imm : BitVec 12)
  /-- SH (R149). -/
  | sh (rs2 rs1 : Reg) (imm : BitVec 12)
  /-- SW (R150). -/
  | sw (rs2 rs1 : Reg) (imm : BitVec 12)
  /-- BEQ (R154). -/
  | beq (rs1 rs2 : Reg) (offset : BitVec 13)
  /-- BNE (R155). -/
  | bne (rs1 rs2 : Reg) (offset : BitVec 13)
  /-- BLT (R156). -/
  | blt (rs1 rs2 : Reg) (offset : BitVec 13)
  /-- BGE (R157). -/
  | bge (rs1 rs2 : Reg) (offset : BitVec 13)
  /-- BLTU (R158). -/
  | bltu (rs1 rs2 : Reg) (offset : BitVec 13)
  /-- BGEU (R159). -/
  | bgeu (rs1 rs2 : Reg) (offset : BitVec 13)
  /-- LUI (R163). -/
  | lui (rd : Reg) (imm20 : BitVec 20)
  /-- AUIPC (R164). -/
  | auipc (rd : Reg) (imm20 : BitVec 20)
  /-- JAL (R167). -/
  | jal (rd : Reg) (offset : BitVec 21)
  /-- JALR (R168). -/
  | jalr (rd rs1 : Reg) (imm : BitVec 12)
  /-- ECALL (R173). -/
  | ecall
deriving DecidableEq, Repr

/-- The kinds of decode fault (30_encoding.md R98). -/
inductive DecodeFaultKind where
  /-- UNKNOWN_OPCODE (30_encoding.md R78). -/
  | unknownOpcode
  /-- BAD_FUNCT3 (30_encoding.md R79). -/
  | badFunct3
  /-- BAD_FUNCT7, under STRICT_DECODE only (30_encoding.md R80). -/
  | badFunct7
deriving DecidableEq, Repr

/-- What the decoder answers for a word (30_encoding.md R98): every word gets exactly one of these. -/
inductive Decoded where
  /-- The all-zero word. -/
  | zero
  /-- An instruction of the opcode table. -/
  | instr (i : Instr)
  /-- A decode fault, by its kind. -/
  | fault (kind : DecodeFaultKind)
deriving DecidableEq, Repr

/-- The row of opcode_table.json an instruction stands for, by its mnemonic. -/
def Instr.mnemonic : Instr → String
  | .addi _ _ _ => "ADDI"
  | .slti _ _ _ => "SLTI"
  | .sltiu _ _ _ => "SLTIU"
  | .xori _ _ _ => "XORI"
  | .ori _ _ _ => "ORI"
  | .andi _ _ _ => "ANDI"
  | .slli _ _ _ => "SLLI"
  | .srli _ _ _ => "SRLI"
  | .srai _ _ _ => "SRAI"
  | .add _ _ _ => "ADD"
  | .sub _ _ _ => "SUB"
  | .sll _ _ _ => "SLL"
  | .slt _ _ _ => "SLT"
  | .sltu _ _ _ => "SLTU"
  | .xor _ _ _ => "XOR"
  | .srl _ _ _ => "SRL"
  | .sra _ _ _ => "SRA"
  | .or _ _ _ => "OR"
  | .and _ _ _ => "AND"
  | .lb _ _ _ => "LB"
  | .lh _ _ _ => "LH"
  | .lw _ _ _ => "LW"
  | .lbu _ _ _ => "LBU"
  | .lhu _ _ _ => "LHU"
  | .sb _ _ _ => "SB"
  | .sh _ _ _ => "SH"
  | .sw _ _ _ => "SW"
  | .beq _ _ _ => "BEQ"
  | .bne _ _ _ => "BNE"
  | .blt _ _ _ => "BLT"
  | .bge _ _ _ => "BGE"
  | .bltu _ _ _ => "BLTU"
  | .bgeu _ _ _ => "BGEU"
  | .lui _ _ => "LUI"
  | .auipc _ _ => "AUIPC"
  | .jal _ _ => "JAL"
  | .jalr _ _ _ => "JALR"
  | .ecall => "ECALL"

end Sys2Proof
end

