-- ==== Sys2Proof/WellFormed.lean ====
section
/-! DEFINITION. Which instruction terms an encoding can stand for: branch and JAL offsets are even, because bit 0 of imm_B
and imm_J is a literal 0 (30_encoding.md R83, R85). Every other operand may hold any value of its type. -/

namespace Sys2Proof

/-- Bit 0 of the offset is 0. -/
abbrev EvenOffset {n : Nat} (offset : BitVec n) : Prop := offset.getLsbD 0 = false

/-- The instruction can be encoded (30_encoding.md R83 for the branches, R85 for JAL). -/
def Instr.wellFormed : Instr → Bool
  | .beq _ _ off | .bne _ _ off | .blt _ _ off | .bge _ _ off | .bltu _ _ off | .bgeu _ _ off => decide (EvenOffset off)
  | .jal _ off => decide (EvenOffset off)
  | .addi _ _ _ | .slti _ _ _ | .sltiu _ _ _ | .xori _ _ _ | .ori _ _ _ | .andi _ _ _ => true
  | .slli _ _ _ | .srli _ _ _ | .srai _ _ _ => true
  | .add _ _ _ | .sub _ _ _ | .sll _ _ _ | .slt _ _ _ | .sltu _ _ _ | .xor _ _ _ | .srl _ _ _ | .sra _ _ _ => true
  | .or _ _ _ | .and _ _ _ => true
  | .lb _ _ _ | .lh _ _ _ | .lw _ _ _ | .lbu _ _ _ | .lhu _ _ _ => true
  | .sb _ _ _ | .sh _ _ _ | .sw _ _ _ => true
  | .lui _ _ | .auipc _ _ | .jalr _ _ _ | .ecall => true

end Sys2Proof
end

