-- ==== Sys2Proof/Decode.lean ====
section
/-! DEFINITION. The decoder (30_encoding.md R71 to R91, R96 to R100), total on 32-bit words, the opcode table it stands
for, and the encoder written from the same formats (R73). -/

namespace Sys2Proof

/-! ### Fields of an instruction word (30_encoding.md R72, R74) -/

/-- inst[6:0]. -/
def opcodeOf (w : Word) : BitVec 7 := w.extractLsb' 0 7
/-- inst[11:7]. -/
def rdOf (w : Word) : Reg := w.extractLsb' 7 5
/-- inst[14:12]. -/
def funct3Of (w : Word) : BitVec 3 := w.extractLsb' 12 3
/-- inst[19:15]. -/
def rs1Of (w : Word) : Reg := w.extractLsb' 15 5
/-- inst[24:20]. -/
def rs2Of (w : Word) : Reg := w.extractLsb' 20 5
/-- inst[31:25] (R74). -/
def funct7Of (w : Word) : BitVec 7 := w.extractLsb' 25 7
/-- inst[30], the only bit of funct7 that a lax decoder reads (R74, R75). -/
def b30Of (w : Word) : Bool := w.getLsbD 30

/-! ### Immediate fields (30_encoding.md R81 to R86), before sign extension -/

/-- inst[31:20] (R81). -/
def immIOf (w : Word) : BitVec 12 := w.extractLsb' 20 12
/-- The concatenation of inst[31:25] and inst[11:7] (R82). -/
def immSOf (w : Word) : BitVec 12 := w.extractLsb' 25 7 ++ w.extractLsb' 7 5
/-- The concatenation of inst[31], inst[7], inst[30:25], inst[11:8] and a zero bit (R83). -/
def immBOf (w : Word) : BitVec 13 :=
  w.extractLsb' 31 1 ++ w.extractLsb' 7 1 ++ w.extractLsb' 25 6 ++ w.extractLsb' 8 4 ++ 0#1
/-- inst[31:12], the operand imm20 of R93; imm_U is this field followed by twelve zero bits (R84, R97). -/
def immUOf (w : Word) : BitVec 20 := w.extractLsb' 12 20
/-- The concatenation of inst[31], inst[19:12], inst[20], inst[30:21] and a zero bit (R85). -/
def immJOf (w : Word) : BitVec 21 :=
  w.extractLsb' 31 1 ++ w.extractLsb' 12 8 ++ w.extractLsb' 20 1 ++ w.extractLsb' 21 10 ++ 0#1
/-- inst[24:20] as a shift amount (R86). -/
def shamtOf (w : Word) : BitVec 5 := w.extractLsb' 20 5

/-! ### The ten opcodes (30_encoding.md R76) -/

def opcOpImm : BitVec 7 := 0x13#7
def opcOp : BitVec 7 := 0x33#7
def opcLoad : BitVec 7 := 0x03#7
def opcStore : BitVec 7 := 0x23#7
def opcBranch : BitVec 7 := 0x63#7
def opcLui : BitVec 7 := 0x37#7
def opcAuipc : BitVec 7 := 0x17#7
def opcJal : BitVec 7 := 0x6F#7
def opcJalr : BitVec 7 := 0x67#7
def opcSystem : BitVec 7 := 0x73#7

/-! ### The decoder, family by family (30_encoding.md R75, R77) -/

/-- STRICT_DECODE: a word whose funct7 is not the one the instruction asks for is a BAD_FUNCT7 decode fault; without
STRICT_DECODE funct7 is not examined (30_encoding.md R80). -/
def needFunct7 (strict : Bool) (w : Word) (f7 : BitVec 7) (i : Instr) : Decoded :=
  if strict = true ∧ funct7Of w ≠ f7 then .fault .badFunct7 else .instr i

/-- OP-IMM, 0x13: every funct3 is assigned (R77); the shifts take shamt (R86) and SRLI, SRAI are told apart by bit 30. -/
def decodeOpImm (strict : Bool) (w : Word) : Decoded :=
  let rd := rdOf w
  let rs1 := rs1Of w
  let f3 := funct3Of w
  if f3 = 0#3 then .instr (.addi rd rs1 (immIOf w))
  else if f3 = 1#3 then needFunct7 strict w 0x00#7 (.slli rd rs1 (shamtOf w))
  else if f3 = 2#3 then .instr (.slti rd rs1 (immIOf w))
  else if f3 = 3#3 then .instr (.sltiu rd rs1 (immIOf w))
  else if f3 = 4#3 then .instr (.xori rd rs1 (immIOf w))
  else if f3 = 5#3 then
    if b30Of w then needFunct7 strict w 0x20#7 (.srai rd rs1 (shamtOf w))
    else needFunct7 strict w 0x00#7 (.srli rd rs1 (shamtOf w))
  else if f3 = 6#3 then .instr (.ori rd rs1 (immIOf w))
  else .instr (.andi rd rs1 (immIOf w))

/-- OP, 0x33: every funct3 is assigned (R77); ADD, SUB and SRL, SRA are told apart by bit 30. -/
def decodeOp (strict : Bool) (w : Word) : Decoded :=
  let rd := rdOf w
  let rs1 := rs1Of w
  let rs2 := rs2Of w
  let f3 := funct3Of w
  if f3 = 0#3 then
    if b30Of w then needFunct7 strict w 0x20#7 (.sub rd rs1 rs2) else needFunct7 strict w 0x00#7 (.add rd rs1 rs2)
  else if f3 = 1#3 then needFunct7 strict w 0x00#7 (.sll rd rs1 rs2)
  else if f3 = 2#3 then needFunct7 strict w 0x00#7 (.slt rd rs1 rs2)
  else if f3 = 3#3 then needFunct7 strict w 0x00#7 (.sltu rd rs1 rs2)
  else if f3 = 4#3 then needFunct7 strict w 0x00#7 (.xor rd rs1 rs2)
  else if f3 = 5#3 then
    if b30Of w then needFunct7 strict w 0x20#7 (.sra rd rs1 rs2) else needFunct7 strict w 0x00#7 (.srl rd rs1 rs2)
  else if f3 = 6#3 then needFunct7 strict w 0x00#7 (.or rd rs1 rs2)
  else needFunct7 strict w 0x00#7 (.and rd rs1 rs2)

/-- LOAD, 0x03: funct3 3, 6 and 7 are BAD_FUNCT3 (R79, 43_loads.md R145). -/
def decodeLoad (w : Word) : Decoded :=
  let f3 := funct3Of w
  if f3 = 0#3 then .instr (.lb (rdOf w) (rs1Of w) (immIOf w))
  else if f3 = 1#3 then .instr (.lh (rdOf w) (rs1Of w) (immIOf w))
  else if f3 = 2#3 then .instr (.lw (rdOf w) (rs1Of w) (immIOf w))
  else if f3 = 4#3 then .instr (.lbu (rdOf w) (rs1Of w) (immIOf w))
  else if f3 = 5#3 then .instr (.lhu (rdOf w) (rs1Of w) (immIOf w))
  else .fault .badFunct3

/-- STORE, 0x23: funct3 3 to 7 are BAD_FUNCT3 (R79, 44_stores.md R151). -/
def decodeStore (w : Word) : Decoded :=
  let f3 := funct3Of w
  if f3 = 0#3 then .instr (.sb (rs2Of w) (rs1Of w) (immSOf w))
  else if f3 = 1#3 then .instr (.sh (rs2Of w) (rs1Of w) (immSOf w))
  else if f3 = 2#3 then .instr (.sw (rs2Of w) (rs1Of w) (immSOf w))
  else .fault .badFunct3

/-- BRANCH, 0x63: funct3 2 and 3 are BAD_FUNCT3 (R79, 45_branches.md R160). -/
def decodeBranch (w : Word) : Decoded :=
  let f3 := funct3Of w
  if f3 = 0#3 then .instr (.beq (rs1Of w) (rs2Of w) (immBOf w))
  else if f3 = 1#3 then .instr (.bne (rs1Of w) (rs2Of w) (immBOf w))
  else if f3 = 4#3 then .instr (.blt (rs1Of w) (rs2Of w) (immBOf w))
  else if f3 = 5#3 then .instr (.bge (rs1Of w) (rs2Of w) (immBOf w))
  else if f3 = 6#3 then .instr (.bltu (rs1Of w) (rs2Of w) (immBOf w))
  else if f3 = 7#3 then .instr (.bgeu (rs1Of w) (rs2Of w) (immBOf w))
  else .fault .badFunct3

/-- JALR, 0x67: a funct3 other than 0 is BAD_FUNCT3 (47_jumps.md R169). -/
def decodeJalr (w : Word) : Decoded :=
  if funct3Of w = 0#3 then .instr (.jalr (rdOf w) (rs1Of w) (immIOf w)) else .fault .badFunct3

/-- SYSTEM, 0x73: every word is ECALL, under STRICT_DECODE only 0x00000073 (30_encoding.md R80, R91, 48_system.md R174). -/
def decodeSystem (strict : Bool) (w : Word) : Decoded :=
  if strict = true ∧ w ≠ 0x00000073#32 then .fault .badFunct7 else .instr .ecall

/-- Decode(w) of 30_encoding.md R98: by opcode, then funct3, then bit 30 (R75). It reads no register and no memory
(40_execution_cycle.md R106). -/
def decode (strict : Bool) (w : Word) : Decoded :=
  let opc := opcodeOf w
  if w = 0#32 then .zero
  else if opc = opcOpImm then decodeOpImm strict w
  else if opc = opcOp then decodeOp strict w
  else if opc = opcLoad then decodeLoad w
  else if opc = opcStore then decodeStore w
  else if opc = opcBranch then decodeBranch w
  else if opc = opcLui then .instr (.lui (rdOf w) (immUOf w))
  else if opc = opcAuipc then .instr (.auipc (rdOf w) (immUOf w))
  else if opc = opcJal then .instr (.jal (rdOf w) (immJOf w))
  else if opc = opcJalr then decodeJalr w
  else if opc = opcSystem then decodeSystem strict w
  else .fault .unknownOpcode

/-- The instruction of a decoder's answer, if it is one. -/
def instrOf? : Decoded → Option Instr
  | .instr i => some i
  | .zero => none
  | .fault _ => none

/-- The instruction the decoder reads from the word whose low `nbits` bits are `w` and whose other bits are 0. Every
instruction is one 32-bit word (30_encoding.md R71) and the table numbers its bits as the word's; STRICT_DECODE has its
default value (00_scope.md R10). -/
def decodeTableWord (nbits w : Nat) : Option Instr := instrOf? (decode false (BitVec.ofNat 32 (w % 2 ^ nbits)))

/-! ### The encoder (30_encoding.md R73, R76, R77). Bits that a lax decoder ignores are written as STRICT_DECODE asks
(R80), so that both decoders read the word back. -/

/-- R format. -/
def encodeR (f7 : BitVec 7) (rs2 rs1 : Reg) (f3 : BitVec 3) (rd : Reg) (opc : BitVec 7) : Word :=
  f7 ++ rs2 ++ rs1 ++ f3 ++ rd ++ opc
/-- I format. -/
def encodeI (imm : BitVec 12) (rs1 : Reg) (f3 : BitVec 3) (rd : Reg) (opc : BitVec 7) : Word :=
  imm ++ rs1 ++ f3 ++ rd ++ opc
/-- I format with a shift amount: funct7 above it (R73). -/
def encodeShamt (f7 : BitVec 7) (shamt : BitVec 5) (rs1 : Reg) (f3 : BitVec 3) (rd : Reg) (opc : BitVec 7) : Word :=
  f7 ++ shamt ++ rs1 ++ f3 ++ rd ++ opc
/-- S format. -/
def encodeS (imm : BitVec 12) (rs2 rs1 : Reg) (f3 : BitVec 3) (opc : BitVec 7) : Word :=
  imm.extractLsb' 5 7 ++ rs2 ++ rs1 ++ f3 ++ imm.extractLsb' 0 5 ++ opc
/-- B format: bit 0 of the offset is not encoded. -/
def encodeB (off : BitVec 13) (rs2 rs1 : Reg) (f3 : BitVec 3) (opc : BitVec 7) : Word :=
  off.extractLsb' 12 1 ++ off.extractLsb' 5 6 ++ rs2 ++ rs1 ++ f3 ++ off.extractLsb' 1 4 ++ off.extractLsb' 11 1 ++ opc
/-- U format. -/
def encodeU (imm20 : BitVec 20) (rd : Reg) (opc : BitVec 7) : Word := imm20 ++ rd ++ opc
/-- J format: bit 0 of the offset is not encoded. -/
def encodeJ (off : BitVec 21) (rd : Reg) (opc : BitVec 7) : Word :=
  off.extractLsb' 20 1 ++ off.extractLsb' 1 10 ++ off.extractLsb' 11 1 ++ off.extractLsb' 12 8 ++ rd ++ opc

/-- The word of a well-formed instruction. -/
def encode : Instr → Word
  | .addi rd rs1 imm => encodeI imm rs1 0#3 rd opcOpImm
  | .slti rd rs1 imm => encodeI imm rs1 2#3 rd opcOpImm
  | .sltiu rd rs1 imm => encodeI imm rs1 3#3 rd opcOpImm
  | .xori rd rs1 imm => encodeI imm rs1 4#3 rd opcOpImm
  | .ori rd rs1 imm => encodeI imm rs1 6#3 rd opcOpImm
  | .andi rd rs1 imm => encodeI imm rs1 7#3 rd opcOpImm
  | .slli rd rs1 sh => encodeShamt 0x00#7 sh rs1 1#3 rd opcOpImm
  | .srli rd rs1 sh => encodeShamt 0x00#7 sh rs1 5#3 rd opcOpImm
  | .srai rd rs1 sh => encodeShamt 0x20#7 sh rs1 5#3 rd opcOpImm
  | .add rd rs1 rs2 => encodeR 0x00#7 rs2 rs1 0#3 rd opcOp
  | .sub rd rs1 rs2 => encodeR 0x20#7 rs2 rs1 0#3 rd opcOp
  | .sll rd rs1 rs2 => encodeR 0x00#7 rs2 rs1 1#3 rd opcOp
  | .slt rd rs1 rs2 => encodeR 0x00#7 rs2 rs1 2#3 rd opcOp
  | .sltu rd rs1 rs2 => encodeR 0x00#7 rs2 rs1 3#3 rd opcOp
  | .xor rd rs1 rs2 => encodeR 0x00#7 rs2 rs1 4#3 rd opcOp
  | .srl rd rs1 rs2 => encodeR 0x00#7 rs2 rs1 5#3 rd opcOp
  | .sra rd rs1 rs2 => encodeR 0x20#7 rs2 rs1 5#3 rd opcOp
  | .or rd rs1 rs2 => encodeR 0x00#7 rs2 rs1 6#3 rd opcOp
  | .and rd rs1 rs2 => encodeR 0x00#7 rs2 rs1 7#3 rd opcOp
  | .lb rd rs1 imm => encodeI imm rs1 0#3 rd opcLoad
  | .lh rd rs1 imm => encodeI imm rs1 1#3 rd opcLoad
  | .lw rd rs1 imm => encodeI imm rs1 2#3 rd opcLoad
  | .lbu rd rs1 imm => encodeI imm rs1 4#3 rd opcLoad
  | .lhu rd rs1 imm => encodeI imm rs1 5#3 rd opcLoad
  | .sb rs2 rs1 imm => encodeS imm rs2 rs1 0#3 opcStore
  | .sh rs2 rs1 imm => encodeS imm rs2 rs1 1#3 opcStore
  | .sw rs2 rs1 imm => encodeS imm rs2 rs1 2#3 opcStore
  | .beq rs1 rs2 off => encodeB off rs2 rs1 0#3 opcBranch
  | .bne rs1 rs2 off => encodeB off rs2 rs1 1#3 opcBranch
  | .blt rs1 rs2 off => encodeB off rs2 rs1 4#3 opcBranch
  | .bge rs1 rs2 off => encodeB off rs2 rs1 5#3 opcBranch
  | .bltu rs1 rs2 off => encodeB off rs2 rs1 6#3 opcBranch
  | .bgeu rs1 rs2 off => encodeB off rs2 rs1 7#3 opcBranch
  | .lui rd imm20 => encodeU imm20 rd opcLui
  | .auipc rd imm20 => encodeU imm20 rd opcAuipc
  | .jal rd off => encodeJ off rd opcJal
  | .jalr rd rs1 imm => encodeI imm rs1 0#3 rd opcJalr
  | .ecall => 0x00000073#32

/-! ### The opcode table as data (30_encoding.md R99, R100) -/

/-- One row of opcode_table.json: the match and mask for STRICT_DECODE = false and for true. -/
structure OpcodeRow where
  mnemonic : String
  laxMatch : Word
  laxMask : Word
  strictMatch : Word
  strictMask : Word
deriving DecidableEq, Repr

/-- The word is one of the row's, under the given STRICT_DECODE. -/
def rowMatches (strict : Bool) (row : OpcodeRow) (w : Word) : Bool :=
  if strict then w &&& row.strictMask == row.strictMatch else w &&& row.laxMask == row.laxMatch

/-- The rows of OP-IMM. -/
def opImmRows : List OpcodeRow := [
  ⟨"ADDI", 0x00000013#32, 0x0000707F#32, 0x00000013#32, 0x0000707F#32⟩,
  ⟨"SLTI", 0x00002013#32, 0x0000707F#32, 0x00002013#32, 0x0000707F#32⟩,
  ⟨"SLTIU", 0x00003013#32, 0x0000707F#32, 0x00003013#32, 0x0000707F#32⟩,
  ⟨"XORI", 0x00004013#32, 0x0000707F#32, 0x00004013#32, 0x0000707F#32⟩,
  ⟨"ORI", 0x00006013#32, 0x0000707F#32, 0x00006013#32, 0x0000707F#32⟩,
  ⟨"ANDI", 0x00007013#32, 0x0000707F#32, 0x00007013#32, 0x0000707F#32⟩,
  ⟨"SLLI", 0x00001013#32, 0x0000707F#32, 0x00001013#32, 0xFE00707F#32⟩,
  ⟨"SRLI", 0x00005013#32, 0x4000707F#32, 0x00005013#32, 0xFE00707F#32⟩,
  ⟨"SRAI", 0x40005013#32, 0x4000707F#32, 0x40005013#32, 0xFE00707F#32⟩]
/-- The rows of OP. -/
def opRows : List OpcodeRow := [
  ⟨"ADD", 0x00000033#32, 0x4000707F#32, 0x00000033#32, 0xFE00707F#32⟩,
  ⟨"SUB", 0x40000033#32, 0x4000707F#32, 0x40000033#32, 0xFE00707F#32⟩,
  ⟨"SLL", 0x00001033#32, 0x0000707F#32, 0x00001033#32, 0xFE00707F#32⟩,
  ⟨"SLT", 0x00002033#32, 0x0000707F#32, 0x00002033#32, 0xFE00707F#32⟩,
  ⟨"SLTU", 0x00003033#32, 0x0000707F#32, 0x00003033#32, 0xFE00707F#32⟩,
  ⟨"XOR", 0x00004033#32, 0x0000707F#32, 0x00004033#32, 0xFE00707F#32⟩,
  ⟨"SRL", 0x00005033#32, 0x4000707F#32, 0x00005033#32, 0xFE00707F#32⟩,
  ⟨"SRA", 0x40005033#32, 0x4000707F#32, 0x40005033#32, 0xFE00707F#32⟩,
  ⟨"OR", 0x00006033#32, 0x0000707F#32, 0x00006033#32, 0xFE00707F#32⟩,
  ⟨"AND", 0x00007033#32, 0x0000707F#32, 0x00007033#32, 0xFE00707F#32⟩]
/-- The rows of LOAD and STORE. -/
def memoryRows : List OpcodeRow := [
  ⟨"LB", 0x00000003#32, 0x0000707F#32, 0x00000003#32, 0x0000707F#32⟩,
  ⟨"LH", 0x00001003#32, 0x0000707F#32, 0x00001003#32, 0x0000707F#32⟩,
  ⟨"LW", 0x00002003#32, 0x0000707F#32, 0x00002003#32, 0x0000707F#32⟩,
  ⟨"LBU", 0x00004003#32, 0x0000707F#32, 0x00004003#32, 0x0000707F#32⟩,
  ⟨"LHU", 0x00005003#32, 0x0000707F#32, 0x00005003#32, 0x0000707F#32⟩,
  ⟨"SB", 0x00000023#32, 0x0000707F#32, 0x00000023#32, 0x0000707F#32⟩,
  ⟨"SH", 0x00001023#32, 0x0000707F#32, 0x00001023#32, 0x0000707F#32⟩,
  ⟨"SW", 0x00002023#32, 0x0000707F#32, 0x00002023#32, 0x0000707F#32⟩]
/-- The rows of BRANCH, the upper immediates, the jumps and SYSTEM. -/
def controlRows : List OpcodeRow := [
  ⟨"BEQ", 0x00000063#32, 0x0000707F#32, 0x00000063#32, 0x0000707F#32⟩,
  ⟨"BNE", 0x00001063#32, 0x0000707F#32, 0x00001063#32, 0x0000707F#32⟩,
  ⟨"BLT", 0x00004063#32, 0x0000707F#32, 0x00004063#32, 0x0000707F#32⟩,
  ⟨"BGE", 0x00005063#32, 0x0000707F#32, 0x00005063#32, 0x0000707F#32⟩,
  ⟨"BLTU", 0x00006063#32, 0x0000707F#32, 0x00006063#32, 0x0000707F#32⟩,
  ⟨"BGEU", 0x00007063#32, 0x0000707F#32, 0x00007063#32, 0x0000707F#32⟩,
  ⟨"LUI", 0x00000037#32, 0x0000007F#32, 0x00000037#32, 0x0000007F#32⟩,
  ⟨"AUIPC", 0x00000017#32, 0x0000007F#32, 0x00000017#32, 0x0000007F#32⟩,
  ⟨"JAL", 0x0000006F#32, 0x0000007F#32, 0x0000006F#32, 0x0000007F#32⟩,
  ⟨"JALR", 0x00000067#32, 0x0000707F#32, 0x00000067#32, 0x0000707F#32⟩,
  ⟨"ECALL", 0x00000073#32, 0x0000007F#32, 0x00000073#32, 0xFFFFFFFF#32⟩]

/-- opcode_table.json, all 38 rows in its order. -/
def opcodeTable : List OpcodeRow := opImmRows ++ opRows ++ memoryRows ++ controlRows

end Sys2Proof
end

