-- ==== Sys2Proof/Config.lean ====
section
/-! DEFINITION. What is fixed for one block instance: the parameters of 00_scope.md R10. No value of this block is left
undefined by the spec, so there is no free value here. The parameters' default values stand in
Sys2Proof/Machine/ResetValues.lean. -/

namespace Sys2Proof

/-- DECODE_FAULT_POLICY of 00_scope.md R10: what a decode fault does (40_execution_cycle.md R113). -/
inductive DecodeFaultPolicy where
  /-- The block halts with HALT_DECODE_FAULT. -/
  | halt
  /-- The block skips the word and goes on at pc + 4. -/
  | skip
deriving DecidableEq, Repr

/-- MISALIGNED_PC_POLICY of 00_scope.md R10: what a fetch at a pc that is no multiple of 4 does (20_memory.md R54). -/
inductive MisalignedPcPolicy where
  /-- The fetch is performed at any pc. -/
  | fetch
  /-- The block halts with HALT_PC_MISALIGNED and fetches nothing. -/
  | fault
deriving DecidableEq, Repr

/-- The parameters of one block instance (00_scope.md R10, 10_state.md R44). -/
structure Config where
  /-- MEM_CAPACITY: the number of bytes of memory. -/
  memCapacity : Nat
  /-- SP_RESET: the value of x2 after reset. -/
  spReset : Word
  /-- DECODE_FAULT_POLICY. -/
  decodeFaultPolicy : DecodeFaultPolicy
  /-- STRICT_DECODE. -/
  strictDecode : Bool
  /-- MISALIGNED_PC_POLICY. -/
  misalignedPcPolicy : MisalignedPcPolicy
  /-- JALR_LINK_FIRST. -/
  jalrLinkFirst : Bool
deriving DecidableEq, Repr

/-- The constraint 4 <= MEM_CAPACITY <= 2^32 of 00_scope.md R10. -/
abbrev Config.Legal (c : Config) : Prop := 4 ≤ c.memCapacity ∧ c.memCapacity ≤ 2 ^ 32

end Sys2Proof
end

