-- ==== Sys2Proof/Machine/ResetValues.lean ====
section
/-! DEFINITION. The values a block instance starts from: the default parameters (00_scope.md R10) and the register file
after reset (10_state.md R43, 70_reset_and_hazards.md R203). -/

namespace Sys2Proof.Machine

/-- MEM_CAPACITY's default, 4 MiB (00_scope.md R10). -/
def defaultMemCapacity : Nat := 0x00400000

/-- SP_RESET's default for a given capacity: `MEM_CAPACITY mod 2^32` (00_scope.md R10). -/
def defaultSpReset (capacity : Nat) : Word := BitVec.ofNat 32 capacity

/-- The parameters at the spec's defaults (00_scope.md R10, log entry 2). -/
def defaultConfig : Config where
  memCapacity := defaultMemCapacity
  spReset := defaultSpReset defaultMemCapacity
  decodeFaultPolicy := .halt
  strictDecode := false
  misalignedPcPolicy := .fetch
  jalrLinkFirst := false

/-- The register file after reset: every register 0 but x2, which holds SP_RESET (10_state.md R43). -/
def resetRegs (c : Config) : Vector Word 32 := (Vector.replicate 32 0#32).set 2 c.spReset

end Sys2Proof.Machine
end

