-- ==== Sys2Proof/Machine/State.lean ====
section
/-! DEFINITION. The state of one block instance (10_state.md R42), the events it emits (60_exceptions.md R185), and the
state after reset (10_state.md R43, 70_reset_and_hazards.md R203). -/

namespace Sys2Proof.Machine

/-- The halt status of 10_state.md R34. -/
inductive Status where
  /-- Code 0. -/
  | running
  /-- Code 1: a zero word was fetched, or the fetch was out of bounds. -/
  | haltZero
  /-- Code 2: ECALL service 10. -/
  | haltExit
  /-- Code 3: a decode fault under DECODE_FAULT_POLICY = HALT. -/
  | haltDecodeFault
  /-- Code 4: a load or store out of bounds. -/
  | haltMemFault
  /-- Code 5: a fetch at pc mod 4 != 0 under MISALIGNED_PC_POLICY = FAULT. -/
  | haltPcMisaligned
deriving DecidableEq, Repr

/-- The widths of a data access: 1, 2 or 4 bytes (20_memory.md R52). -/
inductive Width where
  | byte
  | half
  | word
deriving DecidableEq, Repr

/-- The access kinds a memory fault names (40_execution_cycle.md R109). -/
inductive AccessKind where
  | load
  | store
deriving DecidableEq, Repr

/-- The events a step may emit, with their fields (60_exceptions.md R185). -/
inductive Event where
  /-- ECALL service 1: the signed value of x10. -/
  | printInt (v : Int)
  /-- ECALL service 4: the bytes before the terminator. -/
  | printStr (bytes : List Byte)
  /-- ECALL with any other service number. -/
  | unknownSyscall (n : Word)
  /-- A fetch out of bounds. -/
  | fetchOutOfBounds (pc : Word)
  /-- A word that is no instruction. -/
  | decodeFault (pc word : Word) (kind : DecodeFaultKind)
  /-- A load or store out of bounds. -/
  | memFault (pc addr : Word) (size : Width) (acc : AccessKind)
  /-- A fetch at a misaligned pc under MISALIGNED_PC_POLICY = FAULT. -/
  | pcMisaligned (pc : Word)
deriving DecidableEq, Repr

/-- Memory as its listed bytes: addresses strictly rising, no listed byte 0, because an unlisted address reads 0 (the
block's memory is zero-initialised, 10_state.md R32). -/
abbrev Memory := List Host.Cell

/-- The state of one block instance. `regs` to `quiet` are the spec's record (10_state.md R42). `cfg` holds the instance's
fixed parameters (10_state.md R44, log entry 1) and `events` the output so far (10_state.md R41, log entry 3). -/
structure State where
  /-- x0 to x31. Slot 0 is never written and never read (10_state.md R22, R23). -/
  regs : Vector Word 32
  /-- The program counter (10_state.md R28). -/
  pc : Word
  /-- Memory (10_state.md R32). -/
  mem : Memory
  /-- The instruction counter, unbounded (10_state.md R33). -/
  icount : Nat
  /-- The halt status (10_state.md R34). -/
  status : Status
  /-- The quiet flag (10_state.md R36). -/
  quiet : Bool
  /-- The parameters of the block instance, which nothing changes (00_scope.md R10). -/
  cfg : Config
  /-- Every event emitted since reset, oldest first (60_exceptions.md R185). -/
  events : List Event
deriving DecidableEq, Repr

/-- The state after RESET of an instance with the given parameters (10_state.md R43, 70_reset_and_hazards.md R203). -/
def State.resetWith (c : Config) : State where
  regs := resetRegs c
  pc := 0#32
  mem := []
  icount := 0
  status := .running
  quiet := false
  cfg := c
  events := []

/-- The state right after reset, with the parameters at the spec's defaults (00_scope.md R10). -/
def State.reset : State := State.resetWith defaultConfig

/-- Why a step could end without a next state. There is no such reason on this hardware, so the type has no constructor:
every abnormal event halts the block in a state the spec describes, with its cause in `status` (00_scope.md R17,
60_exceptions.md R183 to R190), and a halted block's step leaves the state as it is (10_state.md R35). Nothing raises a
fault, which is safe because the halt is there to be seen (log entry 4). -/
inductive Fault where
deriving DecidableEq, Repr

/-- Why the model could give an instruction no meaning. -/
inductive Refusal where
  /-- The instruction has no meaning in the model. Raised only by an arm of exec that rejects its instruction by name,
  and no arm does. Safe. -/
  | notModelled (mnemonic : String)
deriving DecidableEq, Repr

end Sys2Proof.Machine
end

