-- ==== Sys2Proof/Machine/Ops.lean ====
section
/-! DEFINITION. The named operations on memory, registers and the halt status, the outcome record of an instruction
(40_execution_cycle.md R109) and its commit (R110, R111).

TAKING AN EXCEPTION is `halt`: the block has no trap vector and saves no state, a fault sets the halt status and emits an
event (00_scope.md R17, 60_exceptions.md R186, R194). There is NO RETURN from it: the block has no trap return
(60_exceptions.md R194), and only RESET or a successful load sets the status back (10_state.md R35), which is in
Sys2Proof/Machine/HostOps.lean. -/

namespace Sys2Proof.Machine

/-! ### Memory -/

/-- Memory's canonical form: listed addresses strictly rise and no listed byte is what an unlisted address reads as. -/
abbrev Memory.wf (m : Memory) : Prop :=
  List.Pairwise (fun a b : Host.Cell => a.1 < b.1) m ∧ ∀ c ∈ m, c.2 ≠ 0#8

/-- Every listed address is below the capacity (20_memory.md R46). -/
abbrev Memory.below (m : Memory) (capacity : Nat) : Prop := ∀ c ∈ m, c.1 < capacity

/-- What a byte that nothing has written reads as: memory is zero-initialised (10_state.md R32). -/
def unwrittenByte : Byte := 0#8

/-- The byte at an address. -/
def memGet : Memory → Nat → Byte
  | [], _ => unwrittenByte
  | c :: m, a => if c.1 = a then c.2 else memGet m a

/-- Memory with a listed byte placed before the first listed byte of a higher address. -/
def memInsert : Memory → Nat → Byte → Memory
  | [], a, b => [(a, b)]
  | c :: m, a, b => if a < c.1 then (a, b) :: c :: m else c :: memInsert m a b

/-- Memory with one address unlisted. -/
def memErase (m : Memory) (a : Nat) : Memory := m.filter (fun c => c.1 != a)

/-- Memory with the byte at one address replaced. Writing what an unlisted address reads as unlists the address, which
keeps the canonical form. -/
def memSet (m : Memory) (a : Nat) (b : Byte) : Memory :=
  if b = unwrittenByte then memErase m a else memInsert (memErase m a) a b

/-- Memory with the given bytes at `a`, `a + 1`, and so on. -/
def memSetList : Memory → Nat → List Byte → Memory
  | m, _, [] => m
  | m, a, b :: bs => memSetList (memSet m a b) (a + 1) bs

/-- The low `n` bytes of a word, least significant first (20_memory.md R49). -/
def leBytes : Nat → Word → List Byte
  | 0, _ => []
  | n + 1, v => v.setWidth 8 :: leBytes n (v >>> 8)

/-- MemRead(a, n): the byte at the lowest address is the least significant (20_memory.md R48). -/
def memRead (m : Memory) (a : Nat) : (n : Nat) → BitVec (8 * n)
  | 0 => 0#0
  | n + 1 => memRead m (a + 1) n ++ memGet m a

/-- MemWrite(a, n, v): byte `k` of `v` goes to address `a + k` (20_memory.md R49). -/
def memWrite (m : Memory) (a n : Nat) (v : Word) : Memory := memSetList m a (leBytes n v)

/-- InBounds(a, n), computed on unbounded integers (20_memory.md R47). -/
abbrev InBounds (s : State) (a n : Nat) : Prop := a + n ≤ s.cfg.memCapacity

/-- The number of bytes of an access (20_memory.md R52). -/
def widthBytes : Width → Nat
  | .byte => 1
  | .half => 2
  | .word => 4

/-- The bytes from `a` up to the first zero byte, at most `fuel` of them (48_system.md R176). -/
def readString (m : Memory) : (fuel : Nat) → (a : Nat) → List Byte
  | 0, _ => []
  | fuel + 1, a => if memGet m a = 0#8 then [] else memGet m a :: readString m fuel (a + 1)

/-! ### Registers (10_state.md R22, R23) -/

/-- `x[r]`: register 0 reads 0. -/
def readReg (s : State) (r : Reg) : Word := if r = 0#5 then 0#32 else s.regs.get r.toFin

/-- `x[r] <- v`: a write to register 0 is discarded, guarded at the write (10_state.md R23, 90_conflicts.md C3). -/
def writeReg (s : State) (r : Reg) (v : Word) : State :=
  { s with regs := if r = 0#5 then s.regs else s.regs.set r.toFin v }

/-- x17, the system-call number (00_scope.md R10, SYSCALL_NUM_REG). -/
def syscallNumReg : Reg := 17#5
/-- x10, the system-call argument (00_scope.md R10, SYSCALL_ARG_REG). -/
def syscallArgReg : Reg := 10#5

/-! ### Events, the instruction counter and the halt -/

/-- `emit`: the events are appended to the output so far (00_scope.md R17). -/
def emit (s : State) (es : List Event) : State := { s with events := s.events ++ es }

/-- `icount <- icount + 1` (40_execution_cycle.md R104). -/
def countInstr (s : State) : State := { s with icount := s.icount + 1 }

/-- `pc <- t`. -/
def setPc (s : State) (t : Word) : State := { s with pc := t }

/-- `raise Halt(cause, info)`: the halt status is set and the event is emitted (00_scope.md R17). Nothing else changes. -/
def halt (s : State) (cause : Status) (info : List Event) : State := { emit s info with status := cause }

/-- `running`, which STEP returns: the status after the step (10_state.md R34, 40_execution_cycle.md R112). -/
def running (s : State) : Bool := s.status == .running

/-- The code of a halt status (10_state.md R34). -/
def statusCode : Status → Nat
  | .running => 0
  | .haltZero => 1
  | .haltExit => 2
  | .haltDecodeFault => 3
  | .haltMemFault => 4
  | .haltPcMisaligned => 5

/-! ### The outcome of an instruction and its commit -/

/-- Where the next instruction is (40_execution_cycle.md R109). -/
inductive Target where
  /-- `Seq`: pc + 4. -/
  | seq
  /-- `Target(t)`: a control transfer. -/
  | jump (t : Word)
deriving DecidableEq, Repr

/-- `MemFault(addr, n, acc)` (40_execution_cycle.md R109). -/
structure MemFaultInfo where
  addr : Word
  size : Width
  acc : AccessKind
deriving DecidableEq, Repr

/-- A store `(a, n, v)` (40_execution_cycle.md R109). -/
structure MemWriteInfo where
  addr : Word
  size : Width
  value : Word
deriving DecidableEq, Repr

/-- The outcome record of Execute (40_execution_cycle.md R109). -/
structure Effect where
  rdWrite : Option (Reg × Word) := none
  memWrite : Option MemWriteInfo := none
  target : Target := .seq
  exit : Bool := false
  fault : Option MemFaultInfo := none
  events : List Event := []
deriving DecidableEq, Repr

/-- The next pc: pc + 4 unless the instruction set a target (40_execution_cycle.md R110). -/
def nextPc (s : State) : Target → Word
  | .seq => s.pc + 4#32
  | .jump t => t

/-- The register write of an outcome. -/
def commitReg (s : State) : Option (Reg × Word) → State
  | none => s
  | some (r, v) => writeReg s r v

/-- The store of an outcome. -/
def commitMem (s : State) : Option MemWriteInfo → State
  | none => s
  | some w => { s with mem := memWrite s.mem w.addr.toNat (widthBytes w.size) w.value }

/-- The end of STEP, from the outcome on (40_execution_cycle.md R101, R111): an outcome with a fault commits nothing but
the halt; any other commits its register write, its store, the next pc and, for the exit service, the halt. -/
def commit (s : State) (o : Effect) : State :=
  match o.fault with
  | some f => halt (emit s o.events) .haltMemFault [.memFault s.pc f.addr f.size f.acc]
  | none =>
    let t := setPc (commitMem (commitReg (emit s o.events) o.rdWrite) o.memWrite) (nextPc s o.target)
    if o.exit then halt t .haltExit [] else t

/-- An outcome that writes a register and goes on at pc + 4. -/
def effWrite (rd : Reg) (v : Word) : Effect := { rdWrite := some (rd, v) }

/-- An outcome that writes the link register and jumps. -/
def effLink (rd : Reg) (link target : Word) : Effect := { rdWrite := some (rd, link), target := .jump target }

/-- The outcome of a load of the given width from `ea`: the bytes read, extended as the instruction says, or a memory
fault (43_loads.md R139). -/
def effLoad (s : State) (rd : Reg) (ea : Word) (size : Width) (extend : BitVec (8 * widthBytes size) → Word) : Effect :=
  if InBounds s ea.toNat (widthBytes size) then effWrite rd (extend (memRead s.mem ea.toNat (widthBytes size)))
  else { fault := some ⟨ea, size, .load⟩ }

/-- The outcome of a store of the given width to `ea`, or a memory fault (44_stores.md R147). -/
def effStore (s : State) (ea : Word) (size : Width) (v : Word) : Effect :=
  if InBounds s ea.toNat (widthBytes size) then { memWrite := some ⟨ea, size, v⟩ }
  else { fault := some ⟨ea, size, .store⟩ }

/-- The outcome of a conditional branch: to `pc + offset` if the condition holds (45_branches.md R153). -/
def effBranch (taken : Bool) (target : Word) : Effect := if taken then { target := .jump target } else {}

end Sys2Proof.Machine
end

