-- ==== Sys2Proof/Machine/Cycle.lean ====
section
/-! DEFINITION. The part of STEP before Execute (40_execution_cycle.md R101 to R106, R113): the sticky halt, the fetch, the
counter, the decoder, and the faults they raise. -/

namespace Sys2Proof.Machine

/-- The step so far: it has ended in a state, or an instruction is to be executed from a state. -/
inductive Front where
  /-- The step ends here, in this state. -/
  | done (s : State)
  /-- This instruction is executed from this state. -/
  | execute (i : Instr) (s : State)
deriving DecidableEq, Repr

/-- Fetch(pc): the word at pc and whether the fetch was out of bounds, in which case the word is the zero sentinel
(20_memory.md R50). -/
def fetch (s : State) : Word × Bool :=
  if s.pc.toNat + 3 < s.cfg.memCapacity then (memRead s.mem s.pc.toNat 4, false) else (0#32, true)

/-- The check of 20_memory.md R54: under MISALIGNED_PC_POLICY = FAULT a pc that is no multiple of 4 is not fetched from. -/
def misalignedFetch (s : State) : Bool := s.cfg.misalignedPcPolicy == .fault && s.pc.extractLsb' 0 2 != 0#2

/-- The halt of a misaligned fetch (60_exceptions.md R190). -/
def haltMisaligned (s : State) : State := halt s .haltPcMisaligned [.pcMisaligned s.pc]

/-- The halt of a zero word, with the event of an out-of-bounds fetch if it was one (40_execution_cycle.md R105,
60_exceptions.md R189). -/
def haltZeroWord (s : State) (oob : Bool) : State := halt s .haltZero (if oob then [.fetchOutOfBounds s.pc] else [])

/-- A decode fault: the event, then a halt or a skip by DECODE_FAULT_POLICY (40_execution_cycle.md R113,
60_exceptions.md R187). -/
def takeDecodeFault (s : State) (w : Word) (kind : DecodeFaultKind) : State :=
  let info := [Event.decodeFault s.pc w kind]
  match s.cfg.decodeFaultPolicy with
  | .halt => halt s .haltDecodeFault info
  | .skip => setPc (emit s info) (s.pc + 4#32)

/-- What follows the fetch of a word: the zero halt, or the counter, the decoder and the decode fault. The counter is
incremented before decode (40_execution_cycle.md R104), so the fault and the instruction both see it. -/
def decodeAndCount (s : State) (w : Word) (oob : Bool) : Front :=
  match decode s.cfg.strictDecode w with
  | .zero => .done (haltZeroWord s oob)
  | .fault kind => .done (takeDecodeFault (countInstr s) w kind)
  | .instr i => .execute i (countInstr s)

/-- STEP up to Execute, in the order of 60_exceptions.md R192: the sticky halt (10_state.md R35), the misaligned fetch, the
fetch, then decode. -/
def beginStep (s : State) : Front :=
  if running s then
    if misalignedFetch s then .done (haltMisaligned s) else decodeAndCount s (fetch s).1 (fetch s).2
  else .done s

/-- The state with a word placed where the next step fetches and the block running, as a load leaves it (20_memory.md R50).
A word that does not fit below the capacity is not placed. -/
def placeWord (s : State) (w : Word) : State :=
  { s with
    mem := if InBounds s s.pc.toNat 4 then memWrite s.mem s.pc.toNat 4 w else s.mem
    status := .running }

end Sys2Proof.Machine
end

