-- ==== Sys2Proof/Machine/Flags.lean ====
section
/-! DEFINITION. The block has no flags, condition codes or predicate registers (10_state.md R37): a comparison either
writes 0 or 1 to a register or decides a branch directly. This file holds those comparisons (00_scope.md R13, 42_op.md
R138). -/

namespace Sys2Proof.Machine

/-- `signed(a) < signed(b)`. -/
def ltSigned (a b : Word) : Bool := a.slt b

/-- `unsigned(a) < unsigned(b)`. -/
def ltUnsigned (a b : Word) : Bool := a.ult b

/-- A comparison's result as a register value, 1 or 0. -/
def boolWord (b : Bool) : Word := if b then 1#32 else 0#32

end Sys2Proof.Machine
end

