-- ==== Sys2Proof/Machine/Operands.lean ====
section
/-! DEFINITION. Every operand form of the block: the six immediates extended to 32 bits (30_encoding.md R81 to R86), the
shift amount of a register (R87), effective addresses (20_memory.md R56) and pc-relative targets (30_encoding.md R96). -/

namespace Sys2Proof.Machine

/-- imm_I and imm_S: 12 bits, sign-extended (30_encoding.md R81, R82). -/
def imm12 (imm : BitVec 12) : Word := imm.signExtend 32

/-- imm_B: 13 bits, sign-extended (30_encoding.md R83). -/
def immB (offset : BitVec 13) : Word := offset.signExtend 32

/-- imm_U: inst[31:12] followed by twelve zero bits (30_encoding.md R84, R97). -/
def immU (imm20 : BitVec 20) : Word := imm20 ++ 0#12

/-- imm_J: 21 bits, sign-extended (30_encoding.md R85). -/
def immJ (offset : BitVec 21) : Word := offset.signExtend 32

/-- shamt: 5 bits, zero-extended (30_encoding.md R86). -/
def shamtValue (shamt : BitVec 5) : Nat := shamt.toNat

/-- The shift amount of SLL, SRL and SRA: `x[rs2][4:0]` (30_encoding.md R87). -/
def regShamt (v : Word) : Nat := (v.extractLsb' 0 5).toNat

/-- The effective address `x[rs1] + imm`, modulo 2^32 (20_memory.md R56). -/
def effAddr (s : State) (rs1 : Reg) (imm : BitVec 12) : Word := readReg s rs1 + imm12 imm

/-- A branch's target, relative to its own address (30_encoding.md R96). -/
def branchTarget (s : State) (offset : BitVec 13) : Word := s.pc + immB offset

/-- JAL's target, relative to its own address (30_encoding.md R96). -/
def jalTarget (s : State) (offset : BitVec 21) : Word := s.pc + immJ offset

/-- The link value `pc + 4` of a jump (47_jumps.md R166). -/
def linkValue (s : State) : Word := s.pc + 4#32

/-- The state whose register file JALR reads its base from: the one before the link is written, or the one after it under
JALR_LINK_FIRST (47_jumps.md R170). -/
def jalrBaseState (s : State) (rd : Reg) : State := if s.cfg.jalrLinkFirst then writeReg s rd (linkValue s) else s

/-- JALR's target `(x[rs1] + imm_I) AND 0xFFFF_FFFE` (47_jumps.md R168). -/
def jalrTarget (s : State) (rd rs1 : Reg) (imm : BitVec 12) : Word :=
  (readReg (jalrBaseState s rd) rs1 + imm12 imm) &&& 0xFFFFFFFE#32

end Sys2Proof.Machine
end

