-- ==== Sys2Proof/Machine/Branch.lean ====
section
/-! DEFINITION. The conditional branches, opcode 0x63 (45_branches.md R153 to R162). None faults, whatever its target (R161). -/

namespace Sys2Proof.Machine

/-- BEQ (45_branches.md R154). -/
def execBeq (rs1 rs2 : Reg) (offset : BitVec 13) (s : State) : Host.Outcome State Fault Refusal :=
  .next (commit s (effBranch (readReg s rs1 == readReg s rs2) (branchTarget s offset)))

/-- BNE (45_branches.md R155). -/
def execBne (rs1 rs2 : Reg) (offset : BitVec 13) (s : State) : Host.Outcome State Fault Refusal :=
  .next (commit s (effBranch (readReg s rs1 != readReg s rs2) (branchTarget s offset)))

/-- BLT (45_branches.md R156). -/
def execBlt (rs1 rs2 : Reg) (offset : BitVec 13) (s : State) : Host.Outcome State Fault Refusal :=
  .next (commit s (effBranch (ltSigned (readReg s rs1) (readReg s rs2)) (branchTarget s offset)))

/-- BGE (45_branches.md R157): not less than, signed. -/
def execBge (rs1 rs2 : Reg) (offset : BitVec 13) (s : State) : Host.Outcome State Fault Refusal :=
  .next (commit s (effBranch (!ltSigned (readReg s rs1) (readReg s rs2)) (branchTarget s offset)))

/-- BLTU (45_branches.md R158). -/
def execBltu (rs1 rs2 : Reg) (offset : BitVec 13) (s : State) : Host.Outcome State Fault Refusal :=
  .next (commit s (effBranch (ltUnsigned (readReg s rs1) (readReg s rs2)) (branchTarget s offset)))

/-- BGEU (45_branches.md R159): not less than, unsigned. -/
def execBgeu (rs1 rs2 : Reg) (offset : BitVec 13) (s : State) : Host.Outcome State Fault Refusal :=
  .next (commit s (effBranch (!ltUnsigned (readReg s rs1) (readReg s rs2)) (branchTarget s offset)))

end Sys2Proof.Machine
end

