-- ==== Sys2Proof/Machine/Jump.lean ====
section
/-! DEFINITION. The jumps, opcodes 0x6F and 0x67 (47_jumps.md R166 to R172). Neither faults, whatever its target (R171). -/

namespace Sys2Proof.Machine

/-- JAL (47_jumps.md R167). -/
def execJal (rd : Reg) (offset : BitVec 21) (s : State) : Host.Outcome State Fault Refusal :=
  .next (commit s (effLink rd (linkValue s) (jalTarget s offset)))

/-- JALR (47_jumps.md R168, R170). -/
def execJalr (rd rs1 : Reg) (imm : BitVec 12) (s : State) : Host.Outcome State Fault Refusal :=
  .next (commit s (effLink rd (linkValue s) (jalrTarget s rd rs1 imm)))

end Sys2Proof.Machine
end

