-- ==== Sys2Proof/Machine/Load.lean ====
section
/-! DEFINITION. The loads, opcode 0x03 (43_loads.md R139 to R146). A load to x0 still checks its bounds (R146). -/

namespace Sys2Proof.Machine

/-- LB (43_loads.md R140): one byte, sign-extended. -/
def execLb (rd rs1 : Reg) (imm : BitVec 12) (s : State) : Host.Outcome State Fault Refusal :=
  .next (commit s (effLoad s rd (effAddr s rs1 imm) .byte (BitVec.signExtend 32)))

/-- LH (43_loads.md R141): two bytes, sign-extended. -/
def execLh (rd rs1 : Reg) (imm : BitVec 12) (s : State) : Host.Outcome State Fault Refusal :=
  .next (commit s (effLoad s rd (effAddr s rs1 imm) .half (BitVec.signExtend 32)))

/-- LW (43_loads.md R142): four bytes. -/
def execLw (rd rs1 : Reg) (imm : BitVec 12) (s : State) : Host.Outcome State Fault Refusal :=
  .next (commit s (effLoad s rd (effAddr s rs1 imm) .word (BitVec.setWidth 32)))

/-- LBU (43_loads.md R143): one byte, zero-extended. -/
def execLbu (rd rs1 : Reg) (imm : BitVec 12) (s : State) : Host.Outcome State Fault Refusal :=
  .next (commit s (effLoad s rd (effAddr s rs1 imm) .byte (BitVec.setWidth 32)))

/-- LHU (43_loads.md R144): two bytes, zero-extended. -/
def execLhu (rd rs1 : Reg) (imm : BitVec 12) (s : State) : Host.Outcome State Fault Refusal :=
  .next (commit s (effLoad s rd (effAddr s rs1 imm) .half (BitVec.setWidth 32)))

end Sys2Proof.Machine
end

