-- ==== Sys2Proof/Machine/Op.lean ====
section
/-! DEFINITION. The register-register operations, opcode 0x33 (42_op.md R127 to R138). -/

namespace Sys2Proof.Machine

/-- ADD (42_op.md R128). -/
def execAdd (rd rs1 rs2 : Reg) (s : State) : Host.Outcome State Fault Refusal :=
  .next (commit s (effWrite rd (readReg s rs1 + readReg s rs2)))

/-- SUB (42_op.md R129). -/
def execSub (rd rs1 rs2 : Reg) (s : State) : Host.Outcome State Fault Refusal :=
  .next (commit s (effWrite rd (readReg s rs1 - readReg s rs2)))

/-- SLL (42_op.md R130). -/
def execSll (rd rs1 rs2 : Reg) (s : State) : Host.Outcome State Fault Refusal :=
  .next (commit s (effWrite rd (readReg s rs1 <<< regShamt (readReg s rs2))))

/-- SLT (42_op.md R131). -/
def execSlt (rd rs1 rs2 : Reg) (s : State) : Host.Outcome State Fault Refusal :=
  .next (commit s (effWrite rd (boolWord (ltSigned (readReg s rs1) (readReg s rs2)))))

/-- SLTU (42_op.md R132). -/
def execSltu (rd rs1 rs2 : Reg) (s : State) : Host.Outcome State Fault Refusal :=
  .next (commit s (effWrite rd (boolWord (ltUnsigned (readReg s rs1) (readReg s rs2)))))

/-- XOR (42_op.md R133). -/
def execXor (rd rs1 rs2 : Reg) (s : State) : Host.Outcome State Fault Refusal :=
  .next (commit s (effWrite rd (readReg s rs1 ^^^ readReg s rs2)))

/-- SRL (42_op.md R134): zero fill. -/
def execSrl (rd rs1 rs2 : Reg) (s : State) : Host.Outcome State Fault Refusal :=
  .next (commit s (effWrite rd (readReg s rs1 >>> regShamt (readReg s rs2))))

/-- SRA (42_op.md R135): fill with bit 31. -/
def execSra (rd rs1 rs2 : Reg) (s : State) : Host.Outcome State Fault Refusal :=
  .next (commit s (effWrite rd ((readReg s rs1).sshiftRight (regShamt (readReg s rs2)))))

/-- OR (42_op.md R136). -/
def execOr (rd rs1 rs2 : Reg) (s : State) : Host.Outcome State Fault Refusal :=
  .next (commit s (effWrite rd (readReg s rs1 ||| readReg s rs2)))

/-- AND (42_op.md R137). -/
def execAnd (rd rs1 rs2 : Reg) (s : State) : Host.Outcome State Fault Refusal :=
  .next (commit s (effWrite rd (readReg s rs1 &&& readReg s rs2)))

end Sys2Proof.Machine
end

