-- ==== Sys2Proof/Machine/OpImm.lean ====
section
/-! DEFINITION. The register-immediate operations, opcode 0x13 (41_op_imm.md R116 to R126). -/

namespace Sys2Proof.Machine

/-- ADDI (41_op_imm.md R117): the sum modulo 2^32. -/
def execAddi (rd rs1 : Reg) (imm : BitVec 12) (s : State) : Host.Outcome State Fault Refusal :=
  .next (commit s (effWrite rd (readReg s rs1 + imm12 imm)))

/-- SLTI (41_op_imm.md R118). -/
def execSlti (rd rs1 : Reg) (imm : BitVec 12) (s : State) : Host.Outcome State Fault Refusal :=
  .next (commit s (effWrite rd (boolWord (ltSigned (readReg s rs1) (imm12 imm)))))

/-- SLTIU (41_op_imm.md R119): the immediate is sign-extended, then read as unsigned. -/
def execSltiu (rd rs1 : Reg) (imm : BitVec 12) (s : State) : Host.Outcome State Fault Refusal :=
  .next (commit s (effWrite rd (boolWord (ltUnsigned (readReg s rs1) (imm12 imm)))))

/-- XORI (41_op_imm.md R120). -/
def execXori (rd rs1 : Reg) (imm : BitVec 12) (s : State) : Host.Outcome State Fault Refusal :=
  .next (commit s (effWrite rd (readReg s rs1 ^^^ imm12 imm)))

/-- ORI (41_op_imm.md R121). -/
def execOri (rd rs1 : Reg) (imm : BitVec 12) (s : State) : Host.Outcome State Fault Refusal :=
  .next (commit s (effWrite rd (readReg s rs1 ||| imm12 imm)))

/-- ANDI (41_op_imm.md R122). -/
def execAndi (rd rs1 : Reg) (imm : BitVec 12) (s : State) : Host.Outcome State Fault Refusal :=
  .next (commit s (effWrite rd (readReg s rs1 &&& imm12 imm)))

/-- SLLI (41_op_imm.md R123): zero fill. -/
def execSlli (rd rs1 : Reg) (shamt : BitVec 5) (s : State) : Host.Outcome State Fault Refusal :=
  .next (commit s (effWrite rd (readReg s rs1 <<< shamtValue shamt)))

/-- SRLI (41_op_imm.md R124): zero fill. -/
def execSrli (rd rs1 : Reg) (shamt : BitVec 5) (s : State) : Host.Outcome State Fault Refusal :=
  .next (commit s (effWrite rd (readReg s rs1 >>> shamtValue shamt)))

/-- SRAI (41_op_imm.md R125): fill with bit 31. -/
def execSrai (rd rs1 : Reg) (shamt : BitVec 5) (s : State) : Host.Outcome State Fault Refusal :=
  .next (commit s (effWrite rd ((readReg s rs1).sshiftRight (shamtValue shamt))))

end Sys2Proof.Machine
end

