-- ==== Sys2Proof/Machine/Store.lean ====
section
/-! DEFINITION. The stores, opcode 0x23 (44_stores.md R147 to R152). -/

namespace Sys2Proof.Machine

/-- SB (44_stores.md R148): the low byte of x[rs2]. -/
def execSb (rs2 rs1 : Reg) (imm : BitVec 12) (s : State) : Host.Outcome State Fault Refusal :=
  .next (commit s (effStore s (effAddr s rs1 imm) .byte (readReg s rs2)))

/-- SH (44_stores.md R149): the low two bytes of x[rs2]. -/
def execSh (rs2 rs1 : Reg) (imm : BitVec 12) (s : State) : Host.Outcome State Fault Refusal :=
  .next (commit s (effStore s (effAddr s rs1 imm) .half (readReg s rs2)))

/-- SW (44_stores.md R150): all of x[rs2]. -/
def execSw (rs2 rs1 : Reg) (imm : BitVec 12) (s : State) : Host.Outcome State Fault Refusal :=
  .next (commit s (effStore s (effAddr s rs1 imm) .word (readReg s rs2)))

end Sys2Proof.Machine
end

