-- ==== Sys2Proof/Machine/System.lean ====
section
/-! DEFINITION. The system call, opcode 0x73 (48_system.md R173 to R182). It is no trap into a handler: the service is done within the
step (R179). -/

namespace Sys2Proof.Machine

/-- The string service reads from `x[10]` up to the first zero byte or the end of memory (48_system.md R176): the number of
bytes from the address to the capacity bounds the read, and it is 0 when the address is at or above the capacity. -/
def syscallString (s : State) : List Byte :=
  readString s.mem (s.cfg.memCapacity - (readReg s syscallArgReg).toNat) (readReg s syscallArgReg).toNat

/-- The outcome of a system call by its service number, the whole 32-bit x17 (48_system.md R173, R175 to R178). -/
def effSyscall (s : State) : Effect :=
  let n := (readReg s syscallNumReg).toNat
  if n = 1 then { events := [.printInt (readReg s syscallArgReg).toInt] }
  else if n = 4 then { events := [.printStr (syscallString s)] }
  else if n = 10 then { exit := true }
  else { events := [.unknownSyscall (readReg s syscallNumReg)] }

/-- ECALL (48_system.md R173). -/
def execEcall (s : State) : Host.Outcome State Fault Refusal := .next (commit s (effSyscall s))

end Sys2Proof.Machine
end

