-- ==== Sys2Proof/Machine/UpperImm.lean ====
section
/-! DEFINITION. The upper-immediate instructions, opcodes 0x37 and 0x17 (46_upper_immediate.md R163 to R165). -/

namespace Sys2Proof.Machine

/-- LUI (46_upper_immediate.md R163). -/
def execLui (rd : Reg) (imm20 : BitVec 20) (s : State) : Host.Outcome State Fault Refusal :=
  .next (commit s (effWrite rd (immU imm20)))

/-- AUIPC (46_upper_immediate.md R164): relative to its own address. -/
def execAuipc (rd : Reg) (imm20 : BitVec 20) (s : State) : Host.Outcome State Fault Refusal :=
  .next (commit s (effWrite rd (s.pc + immU imm20)))

end Sys2Proof.Machine
end

