-- ==== Sys2Proof/Machine/Step.lean ====
section
/-! DEFINITION. One STEP (40_execution_cycle.md R101). -/

namespace Sys2Proof.Machine

/-- STEP: the fetch, the counter and the decoder, then the instruction's meaning. What STEP returns beside the state is
read off it: `running` of the new state (R112) and the events it appended (60_exceptions.md R185). -/
def step (s : State) : Host.Outcome State Fault Refusal :=
  match beginStep s with
  | .done t => .next t
  | .execute i t => exec i t

/-- The state with the word whose low `nbits` bits are `w`, and whose other bits are 0, stored where the next step fetches,
and the block running: what a load leaves (log entry 5). -/
def State.withFetchWord (s : State) (nbits w : Nat) : State := placeWord s (BitVec.ofNat 32 (w % 2 ^ nbits))

end Sys2Proof.Machine
end

