-- ==== Sys2Proof/Machine/HostOps.lean ====
section
/-! DEFINITION. The host's transactions on the block, between steps (00_scope.md R8, 70_reset_and_hazards.md R201 to R211,
R215). No step runs one. -/

namespace Sys2Proof.Machine

/-! ### Accessors -/

/-- READ_REG(i): x[i], or 0 for an index that is not in 0..31 (10_state.md R27). -/
def hostReadReg (s : State) (i : Int) : Word := if 0 ≤ i ∧ i ≤ 31 then readReg s (BitVec.ofInt 5 i) else 0#32

/-- READ_PC (10_state.md R28). -/
def hostReadPc (s : State) : Word := s.pc

/-- READ_ICOUNT (10_state.md R33). -/
def hostReadIcount (s : State) : Nat := s.icount

/-- READ_STATUS (10_state.md R34). -/
def hostReadStatus (s : State) : Status := s.status

/-- SET_QUIET(b) (10_state.md R36). -/
def setQuiet (s : State) (b : Bool) : State := { s with quiet := b }

/-- RESET: every field as after construction, the parameters of the instance kept (70_reset_and_hazards.md R202, R203). -/
def hostReset (s : State) : State := State.resetWith s.cfg

/-! ### Loading -/

/-- What a successful load sets beside memory: the pc and the status (70_reset_and_hazards.md R205, R208, R210). -/
def finishLoad (s : State) (m : Memory) (entry : Word) : State := { s with mem := m, pc := entry, status := .running }

/-- The words of LOAD_RAW from address `a` on, up to the first that does not fit (70_reset_and_hazards.md R205). -/
def loadWords (capacity : Nat) : Memory → Nat → List Word → Memory
  | m, _, [] => m
  | m, a, w :: ws => if a + 4 ≤ capacity then loadWords capacity (memWrite m a 4 w) (a + 4) ws else m

/-- LOAD_RAW(words): memory cleared, the words written from address 0, pc 0, status RUNNING; it always succeeds
(70_reset_and_hazards.md R205). -/
def loadRaw (s : State) (words : List Word) : State := finishLoad s (loadWords s.cfg.memCapacity [] 0 words) 0#32

/-- A segment descriptor (70_reset_and_hazards.md R206): its type tag, virtual address, total memory size and file content.
Its file-resident size is the length of that content (log entry 8). -/
structure ElfSegment where
  segType : Nat
  vaddr : Word
  memorySize : Nat
  content : List Byte
deriving DecidableEq, Repr

/-- The parsed representation of an ELF object (70_reset_and_hazards.md R206). -/
structure ElfImage where
  /-- The file is a 32-bit ELF object. -/
  is32Bit : Bool
  /-- Its data encoding is little-endian. -/
  littleEndian : Bool
  /-- Its machine field, e_machine. -/
  machine : Nat
  /-- The program headers in order. -/
  segments : List ElfSegment
  /-- The entry-point address. -/
  entry : Word
deriving DecidableEq, Repr

/-- EM_RISCV (70_reset_and_hazards.md R207). -/
def emRiscv : Nat := 243
/-- PT_LOAD (70_reset_and_hazards.md R207). -/
def ptLoad : Nat := 1

/-- The segment is loadable: its type is PT_LOAD. -/
def isLoadable (seg : ElfSegment) : Bool := seg.segType == ptLoad

/-- file_size <= memory_size, and the segment fits the capacity on unbounded integers (70_reset_and_hazards.md R207). -/
def segmentFits (capacity : Nat) (seg : ElfSegment) : Bool :=
  decide (seg.content.length ≤ seg.memorySize) && decide (seg.vaddr.toNat + seg.memorySize ≤ capacity)

/-- The whole validation, before any state changes (70_reset_and_hazards.md R207). -/
def elfValid (capacity : Nat) (img : ElfImage) : Bool :=
  img.is32Bit && img.littleEndian && img.machine == emRiscv &&
    (img.segments.filter isLoadable).all (segmentFits capacity)

/-- The loadable segments' contents, copied in program-header order over memory the load has cleared
(70_reset_and_hazards.md R208). DESIGN CHOICE, unsafe (log entry 18): where the BSS range of one loadable segment overlaps
the file content of another, earlier or later, R208 and 20_memory.md R59 do not say which holds. Here BSS is never written,
it is zero from the clear alone, so the file content stands there. -/
def loadSegments : Memory → List ElfSegment → Memory
  | m, [] => m
  | m, seg :: segs => loadSegments (if isLoadable seg then memSetList m seg.vaddr.toNat seg.content else m) segs

/-- LOAD_ELF(image): success or failure, and the state. A file the host could not open or parse is no image and fails; a
failure changes nothing (70_reset_and_hazards.md R206 to R209). -/
def loadElf (s : State) : Option ElfImage → Bool × State
  | none => (false, s)
  | some img =>
    if elfValid s.cfg.memCapacity img then (true, finishLoad s (loadSegments [] img.segments) img.entry) else (false, s)

/-! ### The transactions as one function -/

/-- A transaction of 00_scope.md R8, which gives exactly these. DESIGN CHOICE, safe (log entry 20): 60_exceptions.md R199
says that a halted block's memory stays readable through the host accessors, and neither R8 nor R200 has an accessor of
memory. The model follows R8 and R200: the host reads no memory, and a halted block keeps it.
DESIGN CHOICE, safe (log entry 21): 10_state.md R36 forwards the quiet flag to the host and R40 calls it visible to the host,
and R8 has no accessor of it and gives it to no answer. The model follows R8: the flag stands in `State.quiet`, where a
statement can read it, and no `Response` carries it. -/
inductive Transaction where
  | step
  | loadRaw (words : List Word)
  | loadElf (image : Option ElfImage)
  | readReg (i : Int)
  | readPc
  | readIcount
  | readStatus
  | setQuiet (b : Bool)
  | reset
deriving DecidableEq, Repr

/-- What a transaction answers (00_scope.md R8). -/
inductive Response where
  /-- STEP: whether the block is running, and the events of the step. -/
  | stepped (running : Bool) (events : List Event)
  /-- LOAD_ELF: success or failure. -/
  | loaded (ok : Bool)
  /-- READ_REG and READ_PC. -/
  | value (v : Word)
  /-- READ_ICOUNT. -/
  | count (n : Nat)
  /-- READ_STATUS. -/
  | halted (st : Status)
  /-- The transaction answers nothing. -/
  | done
deriving DecidableEq, Repr

/-- The state after STEP. Every step of this block has a next state, so the other outcomes, which leave the state, do not
occur (log entry 4). -/
def afterStep (s : State) : State :=
  match step s with
  | .next t => t
  | .fault _ => s
  | .refused _ => s

/-- STEP as the host sees it: `running` and the events this step emitted (00_scope.md R8, 40_execution_cycle.md R112). -/
def hostStep (s : State) : Response × State :=
  (.stepped (running (afterStep s)) ((afterStep s).events.drop s.events.length), afterStep s)

/-- Every transaction's answer and its effect on the state (00_scope.md R8, 70_reset_and_hazards.md R215). -/
def transact (s : State) : Transaction → Response × State
  | .step => hostStep s
  | .loadRaw words => (.done, loadRaw s words)
  | .loadElf image => (.loaded (loadElf s image).1, (loadElf s image).2)
  | .readReg i => (.value (hostReadReg s i), s)
  | .readPc => (.value (hostReadPc s), s)
  | .readIcount => (.count (hostReadIcount s), s)
  | .readStatus => (.halted (hostReadStatus s), s)
  | .setQuiet b => (.done, setQuiet s b)
  | .reset => (.done, hostReset s)

end Sys2Proof.Machine
end

