-- ==== Sys2Proof/Safety.lean ====
section
/-! DEFINITION. The terms claims are stated in: the invariant of a block instance, what a run and its end are
(40_execution_cycle.md R115), and what it means that an instruction retires, faults, or leaves something unchanged. -/

namespace Sys2Proof.Safety

open Sys2Proof.Machine

/-! ### Invariants -/

/-- Memory is in canonical form and lists no address at or above the capacity (20_memory.md R46). -/
abbrev MemoryOk (s : State) : Prop := Memory.wf s.mem ∧ Memory.below s.mem s.cfg.memCapacity

/-- Register 0 never holds a non-zero value between steps (10_state.md R23). -/
abbrev ZeroSlotOk (s : State) : Prop := s.regs.get 0 = 0#32

/-- Bit 0 of the pc is 0. The block clears or never sets it: JALR clears it and every offset is even (10_state.md R31). -/
abbrev PcEven (s : State) : Prop := s.pc.getLsbD 0 = false

/-- What holds between any two host transactions. LOAD_ELF takes its entry point unchecked (70_reset_and_hazards.md R204),
so it says nothing of the pc. -/
abbrev Inv (s : State) : Prop := MemoryOk s ∧ ZeroSlotOk s ∧ s.cfg.Legal

/-! ### A step's front end, in the spec's terms -/

/-- The word in memory at the pc. -/
def wordAtPc (s : State) : Word := memRead s.mem s.pc.toNat 4

/-- The fetch is out of bounds (20_memory.md R50). -/
abbrev FetchOob (s : State) : Prop := ¬ s.pc.toNat + 3 < s.cfg.memCapacity

/-- The step halts on a misaligned pc before it fetches (60_exceptions.md R190). -/
abbrev StopsMisaligned (s : State) : Prop := s.cfg.misalignedPcPolicy = .fault ∧ s.pc.toNat % 4 ≠ 0

/-- The block is running and this step fetches a word that is not zero (60_exceptions.md R192, points 1 to 3 passed). -/
abbrev FetchesWord (s : State) (w : Word) : Prop :=
  s.status = .running ∧ ¬ StopsMisaligned s ∧ ¬ FetchOob s ∧ wordAtPc s = w ∧ w ≠ 0#32

/-- The block is running and this step executes the instruction `i`. -/
abbrev Executes (s : State) (i : Instr) : Prop :=
  ∃ w, FetchesWord s w ∧ decode s.cfg.strictDecode w = .instr i

/-- The state an instruction is executed from: the counter is incremented first (40_execution_cycle.md R104). -/
def counted (s : State) : State := { s with icount := s.icount + 1 }

/-! ### What an instruction leaves unchanged -/

/-- Every byte of memory reads as before. -/
def SameMem (s t : State) : Prop := ∀ a, memGet t.mem a = memGet s.mem a

/-- The counter, the quiet flag and the parameters are as before. -/
def SameRest (s t : State) : Prop := t.icount = s.icount ∧ t.quiet = s.quiet ∧ t.cfg = s.cfg

/-- Register `rd` holds `v`, or nothing is written if it is x0, and every other register reads as before
(10_state.md R22, R23). -/
def WritesReg (s t : State) (rd : Reg) (v : Word) : Prop :=
  (∀ r, readReg t r = if r = rd ∧ r ≠ 0#5 then v else readReg s r) ∧ t.regs.get 0 = s.regs.get 0

/-- The instruction completes: `rd` takes `v`, the next pc is `next`, nothing else changes and no event is emitted. -/
def Retires (s t : State) (rd : Reg) (v next : Word) : Prop :=
  WritesReg s t rd v ∧ t.pc = next ∧ SameMem s t ∧ SameRest s t ∧ t.status = s.status ∧ t.events = s.events

/-- The instruction completes and writes no register: the next pc is `next`, `es` is emitted, nothing else changes. -/
def RetiresQuietly (s t : State) (next : Word) (es : List Event) : Prop :=
  t.regs = s.regs ∧ t.pc = next ∧ SameMem s t ∧ SameRest s t ∧ t.status = s.status ∧ t.events = s.events ++ es

/-- The store completes: byte k of `v` is at `ea + k` for the `n` bytes, and nothing else but the pc changes. -/
def RetiresStore (s t : State) (ea n : Nat) (v : Word) : Prop :=
  (∀ a, memGet t.mem a = if ea ≤ a ∧ a < ea + n then v.extractLsb' (8 * (a - ea)) 8 else memGet s.mem a) ∧
    t.regs = s.regs ∧ t.pc = s.pc + 4#32 ∧ SameRest s t ∧ t.status = s.status ∧ t.events = s.events

/-- The block halts with the given cause and events, and registers, memory and pc are unchanged (60_exceptions.md R193). -/
def Halts (s t : State) (cause : Status) (es : List Event) : Prop :=
  t.status = cause ∧ t.events = s.events ++ es ∧ t.regs = s.regs ∧ t.pc = s.pc ∧ SameMem s t ∧ SameRest s t

/-! ### What an instruction's syntax says of it -/

/-- The register an instruction writes (10_state.md R26). -/
def destReg : Instr → Option Reg
  | .addi rd _ _ | .slti rd _ _ | .sltiu rd _ _ | .xori rd _ _ | .ori rd _ _ | .andi rd _ _ => some rd
  | .slli rd _ _ | .srli rd _ _ | .srai rd _ _ => some rd
  | .add rd _ _ | .sub rd _ _ | .sll rd _ _ | .slt rd _ _ | .sltu rd _ _ => some rd
  | .xor rd _ _ | .srl rd _ _ | .sra rd _ _ | .or rd _ _ | .and rd _ _ => some rd
  | .lb rd _ _ | .lh rd _ _ | .lw rd _ _ | .lbu rd _ _ | .lhu rd _ _ => some rd
  | .lui rd _ | .auipc rd _ | .jal rd _ | .jalr rd _ _ => some rd
  | .sb _ _ _ | .sh _ _ _ | .sw _ _ _ => none
  | .beq _ _ _ | .bne _ _ _ | .blt _ _ _ | .bge _ _ _ | .bltu _ _ _ | .bgeu _ _ _ => none
  | .ecall => none

/-- The data access of a load or store: its address, its width and its kind (20_memory.md R52, R56). -/
def dataAccess (s : State) : Instr → Option (Word × Width × AccessKind)
  | .lb _ rs1 imm | .lbu _ rs1 imm => some (readReg s rs1 + imm.signExtend 32, .byte, .load)
  | .lh _ rs1 imm | .lhu _ rs1 imm => some (readReg s rs1 + imm.signExtend 32, .half, .load)
  | .lw _ rs1 imm => some (readReg s rs1 + imm.signExtend 32, .word, .load)
  | .sb _ rs1 imm => some (readReg s rs1 + imm.signExtend 32, .byte, .store)
  | .sh _ rs1 imm => some (readReg s rs1 + imm.signExtend 32, .half, .store)
  | .sw _ rs1 imm => some (readReg s rs1 + imm.signExtend 32, .word, .store)
  | .addi _ _ _ | .slti _ _ _ | .sltiu _ _ _ | .xori _ _ _ | .ori _ _ _ | .andi _ _ _ => none
  | .slli _ _ _ | .srli _ _ _ | .srai _ _ _ => none
  | .add _ _ _ | .sub _ _ _ | .sll _ _ _ | .slt _ _ _ | .sltu _ _ _ | .xor _ _ _ | .srl _ _ _ | .sra _ _ _ => none
  | .or _ _ _ | .and _ _ _ => none
  | .beq _ _ _ | .bne _ _ _ | .blt _ _ _ | .bge _ _ _ | .bltu _ _ _ | .bgeu _ _ _ => none
  | .lui _ _ | .auipc _ _ | .jal _ _ | .jalr _ _ _ | .ecall => none

/-! ### What may cause an event (60_exceptions.md R185) -/

/-- The step from `s` is one that emits `e`, by the table of 60_exceptions.md R185. -/
def EventCause (s : State) : Event → Prop
  | .printInt v => Executes s .ecall ∧ readReg s 17#5 = 1#32 ∧ v = (readReg s 10#5).toInt
  | .printStr bs => Executes s .ecall ∧ readReg s 17#5 = 4#32 ∧ ∀ b ∈ bs, b ≠ 0#8
  | .unknownSyscall n => Executes s .ecall ∧ readReg s 17#5 = n ∧ n ≠ 1#32 ∧ n ≠ 4#32 ∧ n ≠ 10#32
  | .fetchOutOfBounds pc => pc = s.pc ∧ s.status = .running ∧ ¬ StopsMisaligned s ∧ FetchOob s
  | .decodeFault pc w k => pc = s.pc ∧ FetchesWord s w ∧ decode s.cfg.strictDecode w = .fault k
  | .memFault pc ea w k =>
    pc = s.pc ∧ ∃ i, Executes s i ∧ dataAccess s i = some (ea, w, k) ∧ ¬ InBounds s ea.toNat (widthBytes w)
  | .pcMisaligned pc => pc = s.pc ∧ s.status = .running ∧ StopsMisaligned s

/-! ### The shapes of an instruction's rule: which words are the instruction, and what it does with every operand -/

/-- A register-immediate operation with opcode 0x13 and the given funct3: `rd` takes `value x[rs1] imm_I`
(41_op_imm.md R116). -/
def OpImmRule (f3 : BitVec 3) (mk : Reg → Reg → BitVec 12 → Instr) (value : Word → BitVec 12 → Word) : Prop :=
  (∀ strict w, opcodeOf w = 0x13#7 → funct3Of w = f3 →
    decode strict w = .instr (mk (rdOf w) (rs1Of w) (w.extractLsb' 20 12))) ∧
  ∀ s rd rs1 imm, ∃ t, exec (mk rd rs1 imm) s = .next t ∧ Retires s t rd (value (readReg s rs1) imm) (s.pc + 4#32)

/-- A shift by a constant: opcode 0x13, the given funct3, the words that `sel` picks. STRICT_DECODE asks for the given
inst[31:25], and without it the rest of those bits is ignored (30_encoding.md R80). -/
def ShiftImmRule (f3 : BitVec 3) (sel : Word → Prop) (f7 : BitVec 7) (mk : Reg → Reg → BitVec 5 → Instr)
    (value : Word → Nat → Word) : Prop :=
  (∀ strict w, opcodeOf w = 0x13#7 → funct3Of w = f3 → sel w → (strict = true → w.extractLsb' 25 7 = f7) →
    decode strict w = .instr (mk (rdOf w) (rs1Of w) (w.extractLsb' 20 5))) ∧
  ∀ s rd rs1 sh, ∃ t,
    exec (mk rd rs1 sh) s = .next t ∧ Retires s t rd (value (readReg s rs1) sh.toNat) (s.pc + 4#32)

/-- A register-register operation: opcode 0x33, the given funct3, the words that `sel` picks. STRICT_DECODE asks for the
given inst[31:25], and without it the rest of those bits is ignored (42_op.md R127, 30_encoding.md R80). -/
def OpRule (f3 : BitVec 3) (sel : Word → Prop) (f7 : BitVec 7) (mk : Reg → Reg → Reg → Instr)
    (value : Word → Word → Word) : Prop :=
  (∀ strict w, opcodeOf w = 0x33#7 → funct3Of w = f3 → sel w → (strict = true → w.extractLsb' 25 7 = f7) →
    decode strict w = .instr (mk (rdOf w) (rs1Of w) (rs2Of w))) ∧
  ∀ s rd rs1 rs2, ∃ t, exec (mk rd rs1 rs2) s = .next t ∧
    Retires s t rd (value (readReg s rs1) (readReg s rs2)) (s.pc + 4#32)

/-- A load of `n` bytes: in bounds `rd` takes the value of the bytes at the effective address; out of bounds the block
halts (43_loads.md R139). -/
def LoadRule (f3 : BitVec 3) (mk : Reg → Reg → BitVec 12 → Instr) (size : Width) (n : Nat)
    (value : (Nat → Byte) → Word) : Prop :=
  (∀ strict w, opcodeOf w = 0x03#7 → funct3Of w = f3 →
    decode strict w = .instr (mk (rdOf w) (rs1Of w) (w.extractLsb' 20 12))) ∧
  (∀ s rd rs1 imm ea, ea = readReg s rs1 + imm.signExtend 32 → ea.toNat + n ≤ s.cfg.memCapacity →
    ∃ t, exec (mk rd rs1 imm) s = .next t ∧
      Retires s t rd (value fun k => memGet s.mem (ea.toNat + k)) (s.pc + 4#32)) ∧
  ∀ s rd rs1 imm ea, ea = readReg s rs1 + imm.signExtend 32 → s.cfg.memCapacity < ea.toNat + n →
    ∃ t, exec (mk rd rs1 imm) s = .next t ∧ Halts s t .haltMemFault [.memFault s.pc ea size .load]

/-- A store of `n` bytes: in bounds the low `n` bytes of x[rs2] are at the effective address; out of bounds the block halts
and no byte is written (44_stores.md R147). -/
def StoreRule (f3 : BitVec 3) (mk : Reg → Reg → BitVec 12 → Instr) (size : Width) (n : Nat) : Prop :=
  (∀ strict w, opcodeOf w = 0x23#7 → funct3Of w = f3 →
    decode strict w = .instr (mk (rs2Of w) (rs1Of w) (w.extractLsb' 25 7 ++ w.extractLsb' 7 5))) ∧
  (∀ s rs2 rs1 imm ea, ea = readReg s rs1 + imm.signExtend 32 → ea.toNat + n ≤ s.cfg.memCapacity →
    ∃ t, exec (mk rs2 rs1 imm) s = .next t ∧ RetiresStore s t ea.toNat n (readReg s rs2)) ∧
  ∀ s rs2 rs1 imm ea, ea = readReg s rs1 + imm.signExtend 32 → s.cfg.memCapacity < ea.toNat + n →
    ∃ t, exec (mk rs2 rs1 imm) s = .next t ∧ Halts s t .haltMemFault [.memFault s.pc ea size .store]

/-- A conditional branch: to `pc + imm_B` if the condition holds and to `pc + 4` if not (45_branches.md R153). -/
def BranchRule (f3 : BitVec 3) (mk : Reg → Reg → BitVec 13 → Instr) (cond : Word → Word → Prop) : Prop :=
  (∀ strict w, opcodeOf w = 0x63#7 → funct3Of w = f3 → decode strict w = .instr (mk (rs1Of w) (rs2Of w) (immBOf w))) ∧
  (∀ s rs1 rs2 off, cond (readReg s rs1) (readReg s rs2) →
    ∃ t, exec (mk rs1 rs2 off) s = .next t ∧ RetiresQuietly s t (s.pc + off.signExtend 32) []) ∧
  ∀ s rs1 rs2 off, ¬ cond (readReg s rs1) (readReg s rs2) →
    ∃ t, exec (mk rs1 rs2 off) s = .next t ∧ RetiresQuietly s t (s.pc + 4#32) []

/-- The bytes are what the string service reads from `a` on: none is zero, each is in bounds, and after the last there is a
zero byte or the end of memory (48_system.md R176). -/
def StringAt (s : State) (a : Nat) (bs : List Byte) : Prop :=
  (∀ k (h : k < bs.length), a + k + 1 ≤ s.cfg.memCapacity ∧ memGet s.mem (a + k) = bs[k] ∧ bs[k] ≠ 0#8) ∧
    (s.cfg.memCapacity < a + bs.length + 1 ∨ memGet s.mem (a + bs.length) = 0#8)

/-! ### Runs (40_execution_cycle.md R115) -/

/-- The state after `k` steps. -/
def stepN : Nat → State → State
  | 0, s => s
  | k + 1, s => stepN k (afterStep s)

/-- The run from `s` ends after `k` steps in `t`: every earlier step returned `running = true` and the last one false. -/
abbrev RunEnds (s : State) (k : Nat) (t : State) : Prop :=
  s.status = .running ∧ t = stepN k s ∧ t.status ≠ .running ∧ ∀ j < k, (stepN j s).status = .running

/-- The run ended normally: HALT_EXIT or HALT_ZERO (R115). -/
def normalEnd (t : State) : Bool := t.status == .haltExit || t.status == .haltZero

/-- The run ended in a fault (R115). -/
def faultEnd (t : State) : Bool :=
  t.status == .haltDecodeFault || t.status == .haltMemFault || t.status == .haltPcMisaligned

/-- The event is a decode fault's. A run under DECODE_FAULT_POLICY = SKIP that emitted one counts as faulted (R115). -/
def isDecodeFault : Event → Bool
  | .decodeFault _ _ _ => true
  | .printInt _ | .printStr _ | .unknownSyscall _ | .fetchOutOfBounds _ | .memFault _ _ _ _ | .pcMisaligned _ => false

/-- A safe run: it ends normally and met no decode fault on the way (R115). DESIGN CHOICE, unsafe (log entry 19): a run
that ended with HALT_ZERO on a fetch out of bounds counts as safe here, because R115 calls every HALT_ZERO a normal end and
leaves open whether the conflation is meant. 92_eei_decisions.md D16 and 93_implementation_defined.md I5 advise a claim that
takes HALT_ZERO for success to require no FetchOutOfBounds event beside this. -/
def safeEnd (s t : State) : Bool := normalEnd t && !(t.events.drop s.events.length).any isDecodeFault

end Sys2Proof.Safety
end

