-- ==== Sys2Proof/Certificates/Slice0/Obligations.lean ====
section
/-! DEFINITION. The statements for the provers, from the numbered rules of spec/. None is about a program. -/

open Sys2Proof Sys2Proof.Machine Sys2Proof.Safety

/-! ### Reset, registers, memory -/

/-- 10_state.md R43, 70_reset_and_hazards.md R202, R203: the transaction RESET leaves, from every state, every field of the
spec's record at its reset value, for every choice of parameters; and the parameters' defaults (00_scope.md R10). That x2 is
the stack pointer and that State.reset takes the defaults is log entry 2 (PRESUMED), that RESET keeps the parameters is log
entry 1. -/
def Obligations.ResetLeavesTheSpecifiedState : Prop :=
  (∀ s : State, transact s .reset = (.done, State.resetWith s.cfg)) ∧
  (∀ c : Config,
    (∀ r, readReg (State.resetWith c) r = if r = 2#5 then c.spReset else 0#32) ∧
    (State.resetWith c).pc = 0#32 ∧ (∀ a, memGet (State.resetWith c).mem a = 0#8) ∧
    (State.resetWith c).icount = 0 ∧ (State.resetWith c).status = .running ∧ (State.resetWith c).quiet = false) ∧
  State.reset = State.resetWith State.reset.cfg ∧
  State.reset.cfg.memCapacity = 0x00400000 ∧
  State.reset.cfg.spReset = BitVec.ofNat 32 (State.reset.cfg.memCapacity % 2 ^ 32)

/-- 10_state.md R22, R23: register 0 reads 0 and discards writes, which change no state; any other register holds the last
value written, and a write changes nothing else. The guard at the write is the spec's inference (90_conflicts.md C3). -/
def Obligations.RegisterWritesAreSeenByReadsExceptX0 : Prop :=
  ∀ (s : State) (v : Word),
    readReg s 0#5 = 0#32 ∧ writeReg s 0#5 v = s ∧
    ∀ r, r ≠ 0#5 →
      (∀ q, readReg (writeReg s r v) q = if q = r then v else readReg s q) ∧
      { writeReg s r v with regs := s.regs } = s

/-- 10_state.md R27: READ_REG of 0..31 is the register, of any other index 0, and it changes no state. -/
def Obligations.HostReadRegIsZeroOutOfRange : Prop :=
  ∀ s : State,
    (∀ r : Reg, transact s (.readReg r.toNat) = (.value (readReg s r), s)) ∧
    ∀ i : Int, i < 0 ∨ 31 < i → transact s (.readReg i) = (.value 0#32, s)

/-- 20_memory.md R48: MemRead is the little-endian number of its bytes, 1, 2 or 4 of them (here, any number). -/
def Obligations.MemReadIsLittleEndian : Prop :=
  ∀ (m : Memory) (a n : Nat),
    (memRead m a n).toNat = ∑ k ∈ Finset.range n, (memGet m (a + k)).toNat * 2 ^ (8 * k)

/-- 20_memory.md R49: MemWrite puts byte k of the value at a + k for the n bytes and changes no other byte. -/
def Obligations.MemWriteChangesItsBytesOnly : Prop :=
  ∀ (m : Memory) (a n : Nat) (v : Word), n ≤ 4 →
    (∀ k, k < n → memGet (memWrite m a n v) (a + k) = BitVec.ofNat 8 (v.toNat / 2 ^ (8 * k))) ∧
    ∀ b, b < a ∨ a + n ≤ b → memGet (memWrite m a n v) b = memGet m b

/-- 44_stores.md R152: a store at any in-bounds address, aligned or not, then a load from it with no store in between,
gives the value back: SW then LW, SH then LHU or LH, SB then LBU or LB. The spec infers R152 from R48, R49, R140 to R144
and R148 to R150. -/
def Obligations.StoreThenLoadRoundTrip : Prop :=
  ∀ (s u : State) (rs2 rs1 rd rb : Reg) (imm imm' : BitVec 12) (ea v : Word), rd ≠ 0#5 →
    ea = readReg s rs1 + imm.signExtend 32 → ea = readReg u rb + imm'.signExtend 32 → v = readReg s rs2 →
    u.cfg = s.cfg →
    (ea.toNat + 4 ≤ s.cfg.memCapacity →
      ∃ t, exec (.sw rs2 rs1 imm) s = .next t ∧
        (u.mem = t.mem → ∃ x, exec (.lw rd rb imm') u = .next x ∧ readReg x rd = v)) ∧
    (ea.toNat + 2 ≤ s.cfg.memCapacity →
      ∃ t, exec (.sh rs2 rs1 imm) s = .next t ∧
        (u.mem = t.mem →
          (∃ x, exec (.lhu rd rb imm') u = .next x ∧ readReg x rd = (v.extractLsb' 0 16).setWidth 32) ∧
          ∃ x, exec (.lh rd rb imm') u = .next x ∧ readReg x rd = (v.extractLsb' 0 16).signExtend 32)) ∧
    (ea.toNat + 1 ≤ s.cfg.memCapacity →
      ∃ t, exec (.sb rs2 rs1 imm) s = .next t ∧
        (u.mem = t.mem →
          (∃ x, exec (.lbu rd rb imm') u = .next x ∧ readReg x rd = (v.extractLsb' 0 8).setWidth 32) ∧
          ∃ x, exec (.lb rd rb imm') u = .next x ∧ readReg x rd = (v.extractLsb' 0 8).signExtend 32))

/-! ### Encoding and decoding -/

/-- 30_encoding.md section 4: the six immediates as signed numbers of the instruction's bits. -/
def Obligations.ImmediatesAreTheNumbersOfTheirBits : Prop :=
  ∀ (w : Word) (f : Nat → Nat → Int), (∀ lo n, f lo n = ((w.extractLsb' lo n).toNat : Int)) →
    (imm12 (immIOf w)).toInt = f 20 11 - 2048 * f 31 1 ∧
    (imm12 (immSOf w)).toInt = f 7 5 + 32 * f 25 6 - 2048 * f 31 1 ∧
    (immB (immBOf w)).toInt = 2 * f 8 4 + 32 * f 25 6 + 2048 * f 7 1 - 4096 * f 31 1 ∧
    immU (immUOf w) = w &&& 0xFFFFF000#32 ∧
    (immJ (immJOf w)).toInt = 2 * f 21 10 + 2048 * f 20 1 + 4096 * f 12 8 - 1048576 * f 31 1 ∧
    (shamtValue (shamtOf w) : Int) = f 20 5 ∧ shamtValue (shamtOf w) < 32

/-- Decode and encode agree, under either value of STRICT_DECODE, for every well-formed instruction. The encoder is the
model's own, written from 30_encoding.md R73, R76, R77, R80 (log entry 11). -/
def Obligations.DecodeOfEncodeIsTheInstruction : Prop :=
  ∀ (strict : Bool) (i : Instr), i.wellFormed = true → decode strict (encode i) = .instr i

/-- Under STRICT_DECODE every word has one meaning and every instruction one word: a word that decodes to an instruction
is that instruction's encoding, and the instruction is well-formed. What the encoder writes in bits a lax decoder ignores
is the model's choice (log entry 11). -/
def Obligations.StrictDecodeReadsOnlyEncodings : Prop :=
  ∀ (w : Word) (i : Instr), decode true w = .instr i → i.wellFormed = true ∧ encode i = w

/-- 30_encoding.md R90: every word falls into exactly one class, and a word of the second class matches exactly one row of
the opcode table, which is the row of the instruction it decodes to. That the rows are disjoint is the spec's inference
(R98, R99). -/
def Obligations.EveryWordFallsInOneClass : Prop :=
  ∀ (strict : Bool) (w : Word),
    (w = 0#32 ∧ decode strict w = .zero ∧ ∀ row ∈ opcodeTable, rowMatches strict row w = false) ∨
    (w ≠ 0#32 ∧ ∃ i, decode strict w = .instr i ∧ i.wellFormed = true ∧
      ∃ row ∈ opcodeTable, row.mnemonic = i.mnemonic ∧
        ∀ row' ∈ opcodeTable, rowMatches strict row' w = true ↔ row' = row) ∨
    (w ≠ 0#32 ∧ (∃ k, decode strict w = .fault k) ∧ ∀ row ∈ opcodeTable, rowMatches strict row w = false)

/-- 30_encoding.md R78: UNKNOWN_OPCODE is the fault of exactly the non-zero words whose opcode is not one of the ten. -/
def Obligations.UnknownOpcodeIsAnOpcodeOutsideTheMap : Prop :=
  ∀ (strict : Bool) (w : Word),
    decode strict w = .fault .unknownOpcode ↔
      w ≠ 0#32 ∧ (w.extractLsb' 0 7).toNat ∉ [0x13, 0x33, 0x03, 0x23, 0x63, 0x37, 0x17, 0x6F, 0x67, 0x73]

/-- 30_encoding.md R79: BAD_FUNCT3 is the fault of exactly the words with an unassigned funct3 in LOAD, STORE, BRANCH and
JALR. -/
def Obligations.BadFunct3IsAnUnassignedFunct3 : Prop :=
  ∀ (strict : Bool) (w : Word) (opc f3 : Nat), opc = (w.extractLsb' 0 7).toNat → f3 = (w.extractLsb' 12 3).toNat →
    (decode strict w = .fault .badFunct3 ↔
      opc = 0x03 ∧ f3 ∈ [3, 6, 7] ∨ opc = 0x23 ∧ f3 ∈ [3, 4, 5, 6, 7] ∨ opc = 0x63 ∧ f3 ∈ [2, 3] ∨ opc = 0x67 ∧ f3 ≠ 0)

/-- 30_encoding.md R80: without STRICT_DECODE the unexamined bits are ignored, so words that agree on the examined ones
decode alike and none is a BAD_FUNCT7; with it, BAD_FUNCT7 is the fault of exactly the listed words. -/
def Obligations.UnexaminedBitsCountUnderStrictDecodeOnly : Prop :=
  (∀ w, decode false w ≠ .fault .badFunct7) ∧
  (∀ w w', opcodeOf w = 0x33#7 → opcodeOf w' = 0x33#7 → funct3Of w = funct3Of w' → rdOf w = rdOf w' →
    rs1Of w = rs1Of w' → rs2Of w = rs2Of w' →
    (funct3Of w = 0#3 ∨ funct3Of w = 5#3 → w.getLsbD 30 = w'.getLsbD 30) → decode false w = decode false w') ∧
  (∀ w w', opcodeOf w = 0x13#7 → opcodeOf w' = 0x13#7 → funct3Of w = funct3Of w' → rdOf w = rdOf w' →
    rs1Of w = rs1Of w' → shamtOf w = shamtOf w' →
    funct3Of w = 1#3 ∨ funct3Of w = 5#3 ∧ w.getLsbD 30 = w'.getLsbD 30 → decode false w = decode false w') ∧
  (∀ w w', opcodeOf w = 0x73#7 → opcodeOf w' = 0x73#7 → decode false w = decode false w') ∧
  ∀ (w : Word) (opc f3 f7 : Nat), opc = (w.extractLsb' 0 7).toNat → f3 = (w.extractLsb' 12 3).toNat →
    f7 = (w.extractLsb' 25 7).toNat →
    (decode true w = .fault .badFunct7 ↔
      opc = 0x33 ∧ f7 ≠ 0x00 ∧ (f7 = 0x20 → f3 ≠ 0 ∧ f3 ≠ 5) ∨
      opc = 0x13 ∧ f3 = 1 ∧ f7 ≠ 0x00 ∨
      opc = 0x13 ∧ f3 = 5 ∧ w.getLsbD 30 = false ∧ f7 ≠ 0x00 ∨
      opc = 0x13 ∧ f3 = 5 ∧ w.getLsbD 30 = true ∧ f7 ≠ 0x20 ∨
      opc = 0x73 ∧ w ≠ 0x00000073#32)

/-- Words written out from the encodings, one for each of the ten opcodes and one of no opcode (95_test_vectors.md L1 W4 for
BNE, L2 for the others). -/
def Obligations.WrittenOutWordsDecode : Prop :=
  decode false 0xFFF30293#32 = .instr (.addi 5 6 0xFFF) ∧
  decode false 0x407302B3#32 = .instr (.sub 5 6 7) ∧
  decode false 0xFFC32283#32 = .instr (.lw 5 6 0xFFC) ∧
  decode false 0xFE732E23#32 = .instr (.sw 7 6 0xFFC) ∧
  decode false 0xFE009EE3#32 = .instr (.bne 1 0 0x1FFC) ∧
  decode false 0x123452B7#32 = .instr (.lui 5 0x12345) ∧
  decode false 0xFFFFF297#32 = .instr (.auipc 5 0xFFFFF) ∧
  decode false 0xFF1FF06F#32 = .instr (.jal 0 0x1FFFF0) ∧
  decode false 0x004300E7#32 = .instr (.jalr 1 6 4) ∧
  decode false 0x00000073#32 = .instr .ecall ∧
  decode false 0x0FF0000F#32 = .fault .unknownOpcode

/-! ### The results of the instructions, with all that they leave unchanged -/

/-- 41_op_imm.md R117, R118, R120 to R122. -/
def Obligations.RegisterImmediateResults : Prop :=
  OpImmRule 0#3 .addi (fun a i => BitVec.ofInt 32 (a.toInt + i.toInt)) ∧
  OpImmRule 2#3 .slti (fun a i => if a.toInt < i.toInt then 1#32 else 0#32) ∧
  OpImmRule 4#3 .xori (fun a i => a ^^^ i.signExtend 32) ∧
  OpImmRule 6#3 .ori (fun a i => a ||| i.signExtend 32) ∧
  OpImmRule 7#3 .andi (fun a i => a &&& i.signExtend 32)

/-- 41_op_imm.md R119, which the spec infers from R81: the immediate is sign-extended first and then read as unsigned. -/
def Obligations.SltiuSignExtendsThenComparesUnsigned : Prop :=
  OpImmRule 3#3 .sltiu (fun a i =>
    if (a.toNat : Int) < (if i.toInt < 0 then i.toInt + 2 ^ 32 else i.toInt) then 1#32 else 0#32)

/-- 41_op_imm.md R123 to R125: bits shifted out are lost, SRAI fills with the sign, so it divides the signed value and
rounds down. -/
def Obligations.ImmediateShiftResults : Prop :=
  ShiftImmRule 1#3 (fun _ => True) 0x00#7 .slli (fun a n => BitVec.ofNat 32 (a.toNat * 2 ^ n)) ∧
  ShiftImmRule 5#3 (fun w => w.getLsbD 30 = false) 0x00#7 .srli (fun a n => BitVec.ofNat 32 (a.toNat / 2 ^ n)) ∧
  ShiftImmRule 5#3 (fun w => w.getLsbD 30 = true) 0x20#7 .srai (fun a n => BitVec.ofInt 32 (a.toInt / 2 ^ n))

/-- 42_op.md R128, R129, R131, R132. -/
def Obligations.RegisterArithmeticResults : Prop :=
  OpRule 0#3 (fun w => w.getLsbD 30 = false) 0x00#7 .add (fun a b => BitVec.ofNat 32 (a.toNat + b.toNat)) ∧
  OpRule 0#3 (fun w => w.getLsbD 30 = true) 0x20#7 .sub (fun a b => BitVec.ofInt 32 (a.toNat - b.toNat)) ∧
  OpRule 2#3 (fun _ => True) 0x00#7 .slt (fun a b => if a.toInt < b.toInt then 1#32 else 0#32) ∧
  OpRule 3#3 (fun _ => True) 0x00#7 .sltu (fun a b => if a.toNat < b.toNat then 1#32 else 0#32)

/-- 42_op.md R133, R136, R137: bit by bit. -/
def Obligations.RegisterLogicResults : Prop :=
  OpRule 4#3 (fun _ => True) 0x00#7 .xor (fun a b => BitVec.ofFnLE fun k => a.getLsbD k ^^ b.getLsbD k) ∧
  OpRule 6#3 (fun _ => True) 0x00#7 .or (fun a b => BitVec.ofFnLE fun k => a.getLsbD k || b.getLsbD k) ∧
  OpRule 7#3 (fun _ => True) 0x00#7 .and (fun a b => BitVec.ofFnLE fun k => a.getLsbD k && b.getLsbD k)

/-- 42_op.md R130, R134, R135: the amount is the low 5 bits of x[rs2]. -/
def Obligations.RegisterShiftResults : Prop :=
  OpRule 1#3 (fun _ => True) 0x00#7 .sll (fun a b => BitVec.ofNat 32 (a.toNat * 2 ^ (b.toNat % 32))) ∧
  OpRule 5#3 (fun w => w.getLsbD 30 = false) 0x00#7 .srl (fun a b => BitVec.ofNat 32 (a.toNat / 2 ^ (b.toNat % 32))) ∧
  OpRule 5#3 (fun w => w.getLsbD 30 = true) 0x20#7 .sra (fun a b => BitVec.ofInt 32 (a.toInt / 2 ^ (b.toNat % 32)))

/-- 43_loads.md R140 to R144: in bounds at any alignment, and the memory fault out of bounds. -/
def Obligations.LoadResults : Prop :=
  LoadRule 0#3 .lb .byte 1 (fun m => (m 0).signExtend 32) ∧
  LoadRule 1#3 .lh .half 2 (fun m => (m 1 ++ m 0).signExtend 32) ∧
  LoadRule 2#3 .lw .word 4 (fun m => m 3 ++ m 2 ++ m 1 ++ m 0) ∧
  LoadRule 4#3 .lbu .byte 1 (fun m => (m 0).setWidth 32) ∧
  LoadRule 5#3 .lhu .half 2 (fun m => (m 1 ++ m 0).setWidth 32)

/-- 44_stores.md R148 to R150: in bounds at any alignment, and the memory fault out of bounds. -/
def Obligations.StoreResults : Prop :=
  StoreRule 0#3 .sb .byte 1 ∧ StoreRule 1#3 .sh .half 2 ∧ StoreRule 2#3 .sw .word 4

/-- 45_branches.md R154 to R159. -/
def Obligations.BranchResults : Prop :=
  BranchRule 0#3 .beq (fun a b => a = b) ∧
  BranchRule 1#3 .bne (fun a b => a ≠ b) ∧
  BranchRule 4#3 .blt (fun a b => a.toInt < b.toInt) ∧
  BranchRule 5#3 .bge (fun a b => a.toInt ≥ b.toInt) ∧
  BranchRule 6#3 .bltu (fun a b => a.toNat < b.toNat) ∧
  BranchRule 7#3 .bgeu (fun a b => a.toNat ≥ b.toNat)

/-- 46_upper_immediate.md R163, R164. -/
def Obligations.UpperImmediateResults : Prop :=
  (∀ strict w, opcodeOf w = 0x37#7 → decode strict w = .instr (.lui (rdOf w) (w.extractLsb' 12 20))) ∧
  (∀ s rd imm20, ∃ t, exec (.lui rd imm20) s = .next t ∧
    Retires s t rd (BitVec.ofNat 32 (imm20.toNat * 4096)) (s.pc + 4#32)) ∧
  (∀ strict w, opcodeOf w = 0x17#7 → decode strict w = .instr (.auipc (rdOf w) (w.extractLsb' 12 20))) ∧
  ∀ s rd imm20, ∃ t, exec (.auipc rd imm20) s = .next t ∧
    Retires s t rd (BitVec.ofNat 32 (s.pc.toNat + imm20.toNat * 4096)) (s.pc + 4#32)

/-- 46_upper_immediate.md R165: LUI then ADDI builds any constant c, with hi20 one more than c[31:12] when c[11] = 1.
The spec infers R165 from R163 and R117. -/
def Obligations.LuiThenAddiBuildsEveryConstant : Prop :=
  ∀ (c : Word) (s : State) (rd : Reg) (lo12 : BitVec 12) (hi20 : BitVec 20), rd ≠ 0#5 →
    lo12 = c.extractLsb' 0 12 → hi20 = ((c - lo12.signExtend 32) >>> 12).extractLsb' 0 20 →
    hi20 = c.extractLsb' 12 20 + (if c.getLsbD 11 then 1#20 else 0#20) ∧
    ∃ t u, exec (.lui rd hi20) s = .next t ∧ exec (.addi rd rd lo12) t = .next u ∧
      Retires s u rd c (s.pc + 8#32)

/-- 47_jumps.md R166 to R168, R170: the link is pc + 4 and the jump goes to its target; JALR clears bit 0, and takes its
base before the link is written unless JALR_LINK_FIRST and rd = rs1. -/
def Obligations.JumpsLinkAndGo : Prop :=
  (∀ strict w, opcodeOf w = 0x6F#7 → decode strict w = .instr (.jal (rdOf w) (immJOf w))) ∧
  (∀ s rd off, ∃ t, exec (.jal rd off) s = .next t ∧ Retires s t rd (s.pc + 4#32) (s.pc + off.signExtend 32)) ∧
  (∀ strict w, opcodeOf w = 0x67#7 → funct3Of w = 0#3 →
    decode strict w = .instr (.jalr (rdOf w) (rs1Of w) (w.extractLsb' 20 12))) ∧
  (∀ strict w, opcodeOf w = 0x67#7 → funct3Of w ≠ 0#3 → decode strict w = .fault .badFunct3) ∧
  (∀ s rd rs1 imm, s.cfg.jalrLinkFirst = false ∨ rd ≠ rs1 ∨ rd = 0#5 →
    ∃ t, exec (.jalr rd rs1 imm) s = .next t ∧
      Retires s t rd (s.pc + 4#32) ((readReg s rs1 + imm.signExtend 32) &&& 0xFFFFFFFE#32)) ∧
  ∀ s rd imm, s.cfg.jalrLinkFirst = true → rd ≠ 0#5 →
    ∃ t, exec (.jalr rd rd imm) s = .next t ∧
      Retires s t rd (s.pc + 4#32) ((s.pc + 4#32 + imm.signExtend 32) &&& 0xFFFFFFFE#32)

/-- 48_system.md R174: every word with opcode 0x73 is ECALL, under STRICT_DECODE only 0x00000073. -/
def Obligations.SystemWordsAreEcall : Prop :=
  ∀ w : Word, opcodeOf w = 0x73#7 →
    decode false w = .instr .ecall ∧
    (w = 0x00000073#32 → decode true w = .instr .ecall) ∧
    (w ≠ 0x00000073#32 → decode true w = .fault .badFunct7)

/-- 48_system.md R175. -/
def Obligations.EcallServiceOnePrintsTheInteger : Prop :=
  ∀ s : State, readReg s 17#5 = 1#32 →
    ∃ t, exec .ecall s = .next t ∧ RetiresQuietly s t (s.pc + 4#32) [.printInt (readReg s 10#5).toInt]

/-- 48_system.md R176. -/
def Obligations.EcallServiceFourPrintsTheString : Prop :=
  ∀ s : State, readReg s 17#5 = 4#32 →
    ∃ t bs, exec .ecall s = .next t ∧ RetiresQuietly s t (s.pc + 4#32) [.printStr bs] ∧
      StringAt s (readReg s 10#5).toNat bs

/-- 48_system.md R177: the ECALL's own effect, and the step that executes it. -/
def Obligations.EcallServiceTenExits : Prop :=
  ∀ s : State, readReg s 17#5 = 10#32 →
    (∃ t, exec .ecall s = .next t ∧ t.status = .haltExit ∧ t.pc = s.pc + 4#32 ∧ t.regs = s.regs ∧ SameMem s t ∧
      SameRest s t ∧ t.events = s.events) ∧
    (Executes s .ecall → ∃ t, step s = .next t ∧ running t = false ∧ t.status = .haltExit ∧ t.pc = s.pc + 4#32 ∧
      t.icount = s.icount + 1 ∧ t.regs = s.regs ∧ SameMem s t)

/-- 48_system.md R178. -/
def Obligations.EcallIgnoresUnknownServices : Prop :=
  ∀ s : State, readReg s 17#5 ∉ [1#32, 4#32, 10#32] →
    ∃ t, exec .ecall s = .next t ∧ RetiresQuietly s t (s.pc + 4#32) [.unknownSyscall (readReg s 17#5)]

/-! ### The step -/

/-- A running step whose in-bounds, allowed fetch gives a word that decodes to an instruction is that instruction's
meaning, in the state with the counter incremented (40_execution_cycle.md R101, R103, R104; log entry 7). -/
def Obligations.StepRunsTheDecodedInstruction : Prop :=
  ∀ (s : State) (w : Word) (i : Instr),
    s.status = .running → ¬ (s.cfg.misalignedPcPolicy = .fault ∧ s.pc.toNat % 4 ≠ 0) →
    s.pc.toNat + 4 ≤ s.cfg.memCapacity →
    w = memGet s.mem (s.pc.toNat + 3) ++ memGet s.mem (s.pc.toNat + 2) ++ memGet s.mem (s.pc.toNat + 1) ++
      memGet s.mem s.pc.toNat →
    decode s.cfg.strictDecode w = .instr i →
    i.wellFormed = true ∧ step s = exec i { s with icount := s.icount + 1 }

/-- Every step of every state has a next state: no step ends in a fault or a refusal (log entry 4). -/
def Obligations.EveryStepHasANextState : Prop := ∀ s : State, ∃ t, step s = .next t

/-- 10_state.md R35, 40_execution_cycle.md R102: while halted, any number of steps changes nothing, emits nothing and
returns false, and only RESET or a load that succeeds sets the status back. -/
def Obligations.HaltIsSticky : Prop :=
  ∀ s : State, s.status ≠ .running →
    (∀ k, Host.Core.run core k s = .next s) ∧ transact s .step = (.stepped false [], s) ∧
    ∀ a : Transaction, (transact s a).2.status = .running ↔
      a = .reset ∨ (∃ ws, a = .loadRaw ws) ∨ ∃ img, a = .loadElf img ∧ (transact s a).1 = .loaded true

/-- 40_execution_cycle.md R105, 60_exceptions.md R189: a zero word and a fetch out of bounds halt alike, but for the
event. -/
def Obligations.ZeroFetchHalts : Prop :=
  ∀ s : State, s.status = .running → ¬ StopsMisaligned s →
    (s.cfg.memCapacity < s.pc.toNat + 4 →
      ∃ t, step s = .next t ∧ running t = false ∧ Halts s t .haltZero [.fetchOutOfBounds s.pc]) ∧
    (s.pc.toNat + 4 ≤ s.cfg.memCapacity → (∀ k, k < 4 → memGet s.mem (s.pc.toNat + k) = 0#8) →
      ∃ t, step s = .next t ∧ running t = false ∧ Halts s t .haltZero [])

/-- 60_exceptions.md R190: under FAULT a misaligned pc halts before any fetch, and under FETCH it never does. -/
def Obligations.MisalignedPcHaltsUnderFaultPolicyOnly : Prop :=
  ∀ s : State, s.status = .running →
    (s.cfg.misalignedPcPolicy = .fault → s.pc.toNat % 4 ≠ 0 →
      ∃ t, step s = .next t ∧ Halts s t .haltPcMisaligned [.pcMisaligned s.pc]) ∧
    (s.cfg.misalignedPcPolicy = .fetch → ∃ t, step s = .next t ∧ t.status ≠ .haltPcMisaligned)

/-- 40_execution_cycle.md R113, 60_exceptions.md R187: a decode fault halts or skips by the policy; the counter was
incremented either way. -/
def Obligations.DecodeFaultHaltsOrSkips : Prop :=
  ∀ (s : State) (w : Word) (k : DecodeFaultKind), FetchesWord s w → decode s.cfg.strictDecode w = .fault k →
    (s.cfg.decodeFaultPolicy = .halt → ∃ t, step s = .next t ∧ running t = false ∧
      Halts { s with icount := s.icount + 1 } t .haltDecodeFault [.decodeFault s.pc w k]) ∧
    (s.cfg.decodeFaultPolicy = .skip → ∃ t, step s = .next t ∧ running t = true ∧
      RetiresQuietly { s with icount := s.icount + 1 } t (s.pc + 4#32) [.decodeFault s.pc w k])

/-- 60_exceptions.md R188: a load or store out of bounds halts whatever the policy; nothing but the counter and the status
changes. -/
def Obligations.OutOfBoundsAccessHaltsWithNothingChanged : Prop :=
  ∀ (s : State) (i : Instr) (ea : Word) (w : Width) (k : AccessKind),
    Executes s i → dataAccess s i = some (ea, w, k) → s.cfg.memCapacity < ea.toNat + widthBytes w →
    ∃ t, step s = .next t ∧
      Halts { s with icount := s.icount + 1 } t .haltMemFault [.memFault s.pc ea w k]

/-- 40_execution_cycle.md R104: the counter goes up by one exactly where a non-zero word was fetched, whatever the step
then does. That a step which halts on a fault has counted is the spec's inference. -/
def Obligations.CounterCountsNonZeroFetches : Prop :=
  ∀ s t : State, step s = .next t →
    ((∃ w, FetchesWord s w) → t.icount = s.icount + 1) ∧ ((¬ ∃ w, FetchesWord s w) → t.icount = s.icount)

/-- 60_exceptions.md R185: a step appends at most one event, and only one that its own cause emits. -/
def Obligations.EventsComeFromTheirCauses : Prop :=
  ∀ s t : State, step s = .next t →
    ∃ es, t.events = s.events ++ es ∧ es.length ≤ 1 ∧ ∀ e ∈ es, EventCause s e

/-- 60_exceptions.md R184, R192: each halt status has exactly the cause the spec lists for it. R192 is the spec's inference
from R101. -/
def Obligations.EachHaltHasItsCause : Prop :=
  ∀ s t : State, s.status = .running → step s = .next t →
    (t.status = .haltZero ↔ ¬ StopsMisaligned s ∧ (FetchOob s ∨ wordAtPc s = 0#32)) ∧
    (t.status = .haltExit ↔ Executes s .ecall ∧ readReg s 17#5 = 10#32) ∧
    (t.status = .haltDecodeFault ↔ s.cfg.decodeFaultPolicy = .halt ∧
      ∃ w k, FetchesWord s w ∧ decode s.cfg.strictDecode w = .fault k) ∧
    (t.status = .haltMemFault ↔ ∃ i ea w k, Executes s i ∧ dataAccess s i = some (ea, w, k) ∧
      ¬ InBounds s ea.toNat (widthBytes w)) ∧
    (t.status = .haltPcMisaligned ↔ StopsMisaligned s)

/-- 60_exceptions.md R193, which the spec infers from R111. Faults are precise: a step that ends in one changes no
register, no byte of memory and not the pc, and the counter only where the fault came after a fetch. -/
def Obligations.FaultsArePrecise : Prop :=
  ∀ s t : State, s.status = .running → step s = .next t → t.status ≠ .running → t.status ≠ .haltExit →
    t.regs = s.regs ∧ t.pc = s.pc ∧ SameMem s t ∧
    (t.status = .haltDecodeFault ∨ t.status = .haltMemFault → t.icount = s.icount + 1) ∧
    (t.status = .haltZero ∨ t.status = .haltPcMisaligned → t.icount = s.icount)

/-- Only a store changes memory, and only at its own bytes, all below the capacity (20_memory.md R55, R68, which the spec
infers). -/
def Obligations.OnlyStoresChangeMemory : Prop :=
  ∀ (s t : State) (a : Nat), step s = .next t → memGet t.mem a ≠ memGet s.mem a →
    ∃ i ea w, Executes s i ∧ dataAccess s i = some (ea, w, .store) ∧
      ea.toNat ≤ a ∧ a < ea.toNat + widthBytes w ∧ ea.toNat + widthBytes w ≤ s.cfg.memCapacity

/-- 10_state.md R26, which the spec infers from the instructions' rules: a step changes no register but the destination of
the instruction it executes, and never x0. -/
def Obligations.OnlyTheDestinationRegisterChanges : Prop :=
  ∀ (s t : State) (r : Reg), step s = .next t → readReg t r ≠ readReg s r →
    r ≠ 0#5 ∧ ∃ i, Executes s i ∧ destReg i = some r

/-- No step and no host transaction changes the parameters, and only SET_QUIET and RESET change the quiet flag.
That the parameters stand in the state is the model's choice (log entry 1). -/
def Obligations.ParametersNeverChange : Prop :=
  ∀ (s : State) (a : Transaction),
    (transact s a).2.cfg = s.cfg ∧ ((transact s a).2.quiet = s.quiet ∨ a = .reset ∨ ∃ b, a = .setQuiet b)

/-- The quiet flag, the counter and the events so far are never read: a step from a state that differs in them only is the
same step, differing in them only. That events accumulate in the state is the model's choice (log entry 3). -/
def Obligations.QuietCounterAndEventsAreNeverRead : Prop :=
  ∀ (s t : State) (q : Bool) (n : Nat) (es : List Event), step s = .next t →
    step { s with quiet := q, icount := n, events := es } =
      .next { t with
        quiet := q, icount := n + (t.icount - s.icount), events := es ++ t.events.drop s.events.length }

/-! ### Invariants -/

/-- The invariant, which is the model's (log entries 1 and 6), holds after reset, for every legal choice of parameters and
for the defaults. -/
def Obligations.ResetMeetsTheInvariant : Prop :=
  (∀ c : Config, c.Legal → Inv (State.resetWith c) ∧ PcEven (State.resetWith c)) ∧ Inv State.reset ∧ PcEven State.reset

/-- Every step keeps the invariant: memory stays canonical and below the capacity, the slot of x0 stays 0, the parameters
stay legal; and every step keeps the pc even. The invariant is the model's (log entries 1 and 6). -/
def Obligations.StepKeepsTheInvariant : Prop :=
  ∀ s t : State, step s = .next t → (Inv s → Inv t) ∧ (PcEven s → PcEven t)

/-- Every host transaction keeps the invariant too, whatever words or image it loads. The invariant is the model's (log
entries 1 and 6). -/
def Obligations.TransactionsKeepTheInvariant : Prop :=
  ∀ (s : State) (a : Transaction), Inv s → Inv (transact s a).2

/-- Of 40_execution_cycle.md R115's runs: a run ends normally or in a fault and not in both, after at least one step, and
has one end only. That further steps stay in the final state is the decision D5 of the spec (10_state.md R35,
40_execution_cycle.md R102). -/
def Obligations.RunsEndOnceNormallyOrInAFault : Prop :=
  ∀ (s t : State) (k : Nat), RunEnds s k t →
    normalEnd t = !faultEnd t ∧ 1 ≤ k ∧ (∀ j, stepN (k + j) s = t) ∧ ∀ k' t', RunEnds s k' t' → k' = k ∧ t' = t

/-- Of 40_execution_cycle.md R115's runs: under DECODE_FAULT_POLICY = HALT a run that ends normally met no decode fault, so
its status alone tells; R115 asks for the events too because of SKIP. That safeEnd takes a run off the end of memory, which
emits FetchOutOfBounds, for a normal one is log entry 19. -/
def Obligations.NormalRunsUnderHaltMetNoDecodeFault : Prop :=
  ∀ (s t : State) (k : Nat), RunEnds s k t → s.cfg.decodeFaultPolicy = .halt → safeEnd s t = normalEnd t

/-! ### The host's loads -/

/-- 70_reset_and_hazards.md R205. -/
def Obligations.LoadRawPlacesTheWordsThatFit : Prop :=
  ∀ (s : State) (ws : List Word), ∃ t, transact s (.loadRaw ws) = (.done, t) ∧ t.pc = 0#32 ∧ t.status = .running ∧
    ∀ a, memGet t.mem a =
      if 4 * (a / 4) + 4 ≤ s.cfg.memCapacity then (ws.getD (a / 4) 0#32).extractLsb' (8 * (a % 4)) 8 else 0#8

/-- 70_reset_and_hazards.md R206, R207: LOAD_ELF fails exactly for an image that could not be parsed or has one of the
listed flaws. The machine number and the type tag are the spec's own, and a segment's file size is its content's length
(log entry 8). -/
def Obligations.LoadElfFailsExactlyForFlawedImages : Prop :=
  ∀ s : State,
    (transact s (.loadElf none)).1 = .loaded false ∧
    ∀ img : ElfImage,
      (transact s (.loadElf (some img))).1 = .loaded false ↔
        img.is32Bit = false ∨ img.littleEndian = false ∨ img.machine ≠ 243 ∨
        ∃ seg ∈ img.segments, seg.segType = 1 ∧
          (seg.content.length > seg.memorySize ∨ seg.vaddr.toNat + seg.memorySize > s.cfg.memCapacity)

/-- 70_reset_and_hazards.md R208: after a load that succeeds a byte is that of the last loadable segment whose file content
covers it, and 0 if none does. The type tag is the spec's own (R207, log entry 10), a segment's file content is all of its
content (log entry 8), and that file content stands where another segment's BSS covers it is the model's choice (log entry
18). -/
def Obligations.LoadElfCopiesTheLoadableSegments : Prop :=
  ∀ (s t : State) (img : ElfImage), transact s (.loadElf (some img)) = (.loaded true, t) →
    t.pc = img.entry ∧ t.status = .running ∧
    ∀ a, memGet t.mem a =
      match (img.segments.filter fun g => g.segType == 1).reverse.find? fun g =>
          decide (g.vaddr.toNat ≤ a ∧ a < g.vaddr.toNat + g.content.length) with
      | some g => g.content.getD (a - g.vaddr.toNat) 0#8
      | none => 0#8

/-- 70_reset_and_hazards.md R209, R210: neither load changes the registers, the counter or the quiet flag; one that
succeeds sets the status to RUNNING, and one that fails changes no state at all. -/
def Obligations.LoadsKeepRegistersCounterAndQuiet : Prop :=
  ∀ (s t : State) (a : Transaction) (o : Response), transact s a = (o, t) →
    (∃ ws, a = .loadRaw ws) ∨ (∃ img, a = .loadElf img) →
    t.regs = s.regs ∧ t.icount = s.icount ∧ t.quiet = s.quiet ∧
      (o ≠ .loaded false → t.status = .running) ∧ (o = .loaded false → t = s)

/-! ### What the host sees of a step and of the state -/

/-- STEP answers whether the block runs after the step and exactly the events the step emitted, from every state
(00_scope.md R8, 40_execution_cycle.md R112). That the state carries the output is the model's (log entry 3). -/
def Obligations.StepAnswersRunningAndItsEvents : Prop :=
  ∀ s t : State, step s = .next t →
    (running t = true ↔ t.status = .running) ∧
    ∃ es, t.events = s.events ++ es ∧ transact s .step = (.stepped (running t) es, t)

/-- READ_PC, READ_ICOUNT and READ_STATUS answer their field and change no state; SET_QUIET makes the quiet flag its
argument and changes nothing else (10_state.md R28, R33, R34, R36). The codes of the halt status are R34's. -/
def Obligations.HostReadsAnswerTheirFieldAndSetQuietSetsTheFlag : Prop :=
  (∀ s : State,
    transact s .readPc = (.value s.pc, s) ∧
    transact s .readIcount = (.count s.icount, s) ∧
    transact s .readStatus = (.halted s.status, s) ∧
    ∀ b, ∃ t, transact s (.setQuiet b) = (.done, t) ∧ t.quiet = b ∧ { t with quiet := s.quiet } = s) ∧
  [Status.running, .haltZero, .haltExit, .haltDecodeFault, .haltMemFault, .haltPcMisaligned].map statusCode =
    [0, 1, 2, 3, 4, 5]
end

