-- ==== Sys2Proof/Laws/Decode.lean ====
section
/-! SUPPORT. What the decoder answers, case by case, so that no proof unfolds it: by opcode (30_encoding.md R76), by funct3
(R77), and by funct7 under STRICT_DECODE (R80). -/

namespace Sys2Proof

/-- funct3 has eight values. -/
theorem funct3_cases (x : BitVec 3) :
    x = 0#3 ∨ x = 1#3 ∨ x = 2#3 ∨ x = 3#3 ∨ x = 4#3 ∨ x = 5#3 ∨ x = 6#3 ∨ x = 7#3 := by
  revert x; decide

theorem needFunct7_lax (w : Word) (f7 : BitVec 7) (i : Instr) : needFunct7 false w f7 i = .instr i := by
  simp [needFunct7]

theorem needFunct7_ok {strict : Bool} {w : Word} {f7 : BitVec 7} {i : Instr} (h : strict = true → funct7Of w = f7) :
    needFunct7 strict w f7 i = .instr i := by
  cases strict
  · exact needFunct7_lax w f7 i
  · simp [needFunct7, h rfl]

theorem needFunct7_bad {w : Word} {f7 : BitVec 7} (h : funct7Of w ≠ f7) (i : Instr) :
    needFunct7 true w f7 i = .fault .badFunct7 := by
  simp [needFunct7, h]

/-- The answer where funct7 is examined. -/
theorem needFunct7_cases (strict : Bool) (w : Word) (f7 : BitVec 7) (i : Instr) :
    ((strict = true → funct7Of w = f7) ∧ needFunct7 strict w f7 i = .instr i) ∨
      (strict = true ∧ funct7Of w ≠ f7 ∧ needFunct7 strict w f7 i = .fault .badFunct7) := by
  by_cases h : strict = true → funct7Of w = f7
  · exact .inl ⟨h, needFunct7_ok h⟩
  · obtain ⟨hs, hf⟩ : strict = true ∧ funct7Of w ≠ f7 := by simpa using h
    exact .inr ⟨hs, hf, hs ▸ needFunct7_bad hf i⟩

/-! ### One equation per opcode -/

theorem word_ne_zero {w : Word} {opc : BitVec 7} (h : opcodeOf w = opc) (hne : opc ≠ 0#7) : w ≠ 0#32 := by
  rintro rfl; exact hne (h.symm.trans rfl)

theorem decode_opImm {w : Word} (h : opcodeOf w = opcOpImm) (strict : Bool) :
    decode strict w = decodeOpImm strict w := by
  simp [decode, word_ne_zero h (by decide), h]

theorem decode_op {w : Word} (h : opcodeOf w = opcOp) (strict : Bool) : decode strict w = decodeOp strict w := by
  simp [decode, word_ne_zero h (by decide), h, opcOp, opcOpImm]

theorem decode_load {w : Word} (h : opcodeOf w = opcLoad) (strict : Bool) : decode strict w = decodeLoad w := by
  simp [decode, word_ne_zero h (by decide), h, opcLoad, opcOp, opcOpImm]

theorem decode_store {w : Word} (h : opcodeOf w = opcStore) (strict : Bool) : decode strict w = decodeStore w := by
  simp [decode, word_ne_zero h (by decide), h, opcStore, opcLoad, opcOp, opcOpImm]

theorem decode_branch {w : Word} (h : opcodeOf w = opcBranch) (strict : Bool) : decode strict w = decodeBranch w := by
  simp [decode, word_ne_zero h (by decide), h, opcBranch, opcStore, opcLoad, opcOp, opcOpImm]

theorem decode_lui {w : Word} (h : opcodeOf w = opcLui) (strict : Bool) :
    decode strict w = .instr (.lui (rdOf w) (immUOf w)) := by
  simp [decode, word_ne_zero h (by decide), h, opcLui, opcBranch, opcStore, opcLoad, opcOp, opcOpImm]

theorem decode_auipc {w : Word} (h : opcodeOf w = opcAuipc) (strict : Bool) :
    decode strict w = .instr (.auipc (rdOf w) (immUOf w)) := by
  simp [decode, word_ne_zero h (by decide), h, opcAuipc, opcLui, opcBranch, opcStore, opcLoad, opcOp, opcOpImm]

theorem decode_jal {w : Word} (h : opcodeOf w = opcJal) (strict : Bool) :
    decode strict w = .instr (.jal (rdOf w) (immJOf w)) := by
  simp [decode, word_ne_zero h (by decide), h, opcJal, opcAuipc, opcLui, opcBranch, opcStore, opcLoad, opcOp, opcOpImm]

theorem decode_jalr {w : Word} (h : opcodeOf w = opcJalr) (strict : Bool) : decode strict w = decodeJalr w := by
  simp [decode, word_ne_zero h (by decide), h, opcJalr, opcJal, opcAuipc, opcLui, opcBranch, opcStore, opcLoad, opcOp, opcOpImm]

theorem decode_system {w : Word} (h : opcodeOf w = opcSystem) (strict : Bool) :
    decode strict w = decodeSystem strict w := by
  simp [decode, word_ne_zero h (by decide), h, opcSystem, opcJalr, opcJal, opcAuipc, opcLui, opcBranch, opcStore, opcLoad,
    opcOp, opcOpImm]

/-- The opcode is one of the ten of 30_encoding.md R76. -/
abbrev KnownOpcode (w : Word) : Prop :=
  opcodeOf w = opcOpImm ∨ opcodeOf w = opcOp ∨ opcodeOf w = opcLoad ∨ opcodeOf w = opcStore ∨ opcodeOf w = opcBranch ∨
    opcodeOf w = opcLui ∨ opcodeOf w = opcAuipc ∨ opcodeOf w = opcJal ∨ opcodeOf w = opcJalr ∨ opcodeOf w = opcSystem

theorem decode_unknown {w : Word} (hw : w ≠ 0#32) (h : ¬ KnownOpcode w) (strict : Bool) :
    decode strict w = .fault .unknownOpcode := by
  simp only [KnownOpcode, not_or] at h
  obtain ⟨h1, h2, h3, h4, h5, h6, h7, h8, h9, h10⟩ := h
  simp [decode, hw, h1, h2, h3, h4, h5, h6, h7, h8, h9, h10]

theorem decode_zero (strict : Bool) : decode strict 0#32 = .zero := rfl

/-! ### What each family's decoder can answer: an instruction of the family that is well-formed, or a fault -/

/-- The answer is an instruction that satisfies `P`, or one of the two faults a known opcode can have. -/
abbrev InstrOrFault (d : Decoded) (P : Instr → Prop) : Prop :=
  (∃ i, d = .instr i ∧ P i) ∨ d = .fault .badFunct3 ∨ d = .fault .badFunct7

theorem needFunct7_instrOrFault {strict : Bool} {w : Word} {f7 : BitVec 7} {i : Instr} {P : Instr → Prop} (h : P i) :
    InstrOrFault (needFunct7 strict w f7 i) P := by
  rcases needFunct7_cases strict w f7 i with ⟨-, e⟩ | ⟨-, -, e⟩
  · exact .inl ⟨i, e, h⟩
  · exact .inr (.inr e)

/-- An offset whose last bit is the literal 0 of R83 and R85 is even. -/
theorem even_append_zero {n : Nat} (x : BitVec n) : EvenOffset (x ++ 0#1) := by
  rw [EvenOffset, BitVec.getLsbD_append]; simp

theorem decode_known {w : Word} (h : KnownOpcode w) (strict : Bool) :
    InstrOrFault (decode strict w) (fun i => i.wellFormed = true) := by
  have even1 : EvenOffset (immBOf w) := even_append_zero _
  have even2 : EvenOffset (immJOf w) := even_append_zero _
  have one : ∀ {i : Instr}, i.wellFormed = true → InstrOrFault (.instr i) (fun i => i.wellFormed = true) :=
    fun hi => .inl ⟨_, rfl, hi⟩
  rcases h with h | h | h | h | h | h | h | h | h | h
  · rw [decode_opImm h]
    unfold decodeOpImm
    dsimp only
    split_ifs <;> first | exact one rfl | exact needFunct7_instrOrFault rfl
  · rw [decode_op h]
    unfold decodeOp
    dsimp only
    split_ifs <;> exact needFunct7_instrOrFault rfl
  · rw [decode_load h]
    unfold decodeLoad
    dsimp only
    split_ifs <;> first | exact one rfl | exact .inr (.inl rfl)
  · rw [decode_store h]
    unfold decodeStore
    dsimp only
    split_ifs <;> first | exact one rfl | exact .inr (.inl rfl)
  · rw [decode_branch h]
    unfold decodeBranch
    dsimp only
    split_ifs <;> first | exact one (decide_eq_true even1) | exact .inr (.inl rfl)
  · rw [decode_lui h]; exact one rfl
  · rw [decode_auipc h]; exact one rfl
  · rw [decode_jal h]; exact one (decide_eq_true even2)
  · rw [decode_jalr h]
    unfold decodeJalr
    split_ifs
    · exact one rfl
    · exact .inr (.inl rfl)
  · rw [decode_system h]
    unfold decodeSystem
    split_ifs
    · exact .inr (.inr rfl)
    · exact one rfl

/-- The decoder answers Zero for the all-zero word only (30_encoding.md R98). -/
theorem decode_eq_zero_iff (strict : Bool) (w : Word) : decode strict w = .zero ↔ w = 0#32 := by
  refine ⟨fun h => ?_, fun h => h ▸ decode_zero strict⟩
  by_contra hw
  by_cases hk : KnownOpcode w
  · rcases decode_known hk strict with ⟨i, e, -⟩ | e | e <;> rw [e] at h <;> cases h
  · rw [decode_unknown hw hk] at h; cases h

/-- Every instruction the decoder answers can be encoded. -/
theorem wellFormed_of_decode {strict : Bool} {w : Word} {i : Instr} (h : decode strict w = .instr i) :
    i.wellFormed = true := by
  by_cases hw : w = 0#32
  · rw [hw, decode_zero] at h; cases h
  by_cases hk : KnownOpcode w
  · rcases decode_known hk strict with ⟨j, e, hj⟩ | e | e <;> rw [e] at h <;> cases h
    exact hj
  · rw [decode_unknown hw hk] at h; cases h

end Sys2Proof
end

