-- ==== Sys2Proof/Laws/State.lean ====
section
/-! SUPPORT. One lemma per field per update of State, each true by unfolding the update once, so that no later proof
unfolds a record update. -/

namespace Sys2Proof.Machine

theorem writeReg_regs (s : State) (r : Reg) (v : Word) :
    (writeReg s r v).regs = if r = 0#5 then s.regs else s.regs.set r.toFin v := rfl
@[simp] theorem writeReg_pc (s : State) (r : Reg) (v : Word) : (writeReg s r v).pc = s.pc := rfl
@[simp] theorem writeReg_mem (s : State) (r : Reg) (v : Word) : (writeReg s r v).mem = s.mem := rfl
@[simp] theorem writeReg_icount (s : State) (r : Reg) (v : Word) : (writeReg s r v).icount = s.icount := rfl
@[simp] theorem writeReg_status (s : State) (r : Reg) (v : Word) : (writeReg s r v).status = s.status := rfl
@[simp] theorem writeReg_quiet (s : State) (r : Reg) (v : Word) : (writeReg s r v).quiet = s.quiet := rfl
@[simp] theorem writeReg_cfg (s : State) (r : Reg) (v : Word) : (writeReg s r v).cfg = s.cfg := rfl
@[simp] theorem writeReg_events (s : State) (r : Reg) (v : Word) : (writeReg s r v).events = s.events := rfl

@[simp] theorem emit_regs (s : State) (es : List Event) : (emit s es).regs = s.regs := rfl
@[simp] theorem emit_pc (s : State) (es : List Event) : (emit s es).pc = s.pc := rfl
@[simp] theorem emit_mem (s : State) (es : List Event) : (emit s es).mem = s.mem := rfl
@[simp] theorem emit_icount (s : State) (es : List Event) : (emit s es).icount = s.icount := rfl
@[simp] theorem emit_status (s : State) (es : List Event) : (emit s es).status = s.status := rfl
@[simp] theorem emit_quiet (s : State) (es : List Event) : (emit s es).quiet = s.quiet := rfl
@[simp] theorem emit_cfg (s : State) (es : List Event) : (emit s es).cfg = s.cfg := rfl
@[simp] theorem emit_events (s : State) (es : List Event) : (emit s es).events = s.events ++ es := rfl

@[simp] theorem countInstr_regs (s : State) : (countInstr s).regs = s.regs := rfl
@[simp] theorem countInstr_pc (s : State) : (countInstr s).pc = s.pc := rfl
@[simp] theorem countInstr_mem (s : State) : (countInstr s).mem = s.mem := rfl
@[simp] theorem countInstr_icount (s : State) : (countInstr s).icount = s.icount + 1 := rfl
@[simp] theorem countInstr_status (s : State) : (countInstr s).status = s.status := rfl
@[simp] theorem countInstr_quiet (s : State) : (countInstr s).quiet = s.quiet := rfl
@[simp] theorem countInstr_cfg (s : State) : (countInstr s).cfg = s.cfg := rfl
@[simp] theorem countInstr_events (s : State) : (countInstr s).events = s.events := rfl

@[simp] theorem setPc_regs (s : State) (t : Word) : (setPc s t).regs = s.regs := rfl
@[simp] theorem setPc_pc (s : State) (t : Word) : (setPc s t).pc = t := rfl
@[simp] theorem setPc_mem (s : State) (t : Word) : (setPc s t).mem = s.mem := rfl
@[simp] theorem setPc_icount (s : State) (t : Word) : (setPc s t).icount = s.icount := rfl
@[simp] theorem setPc_status (s : State) (t : Word) : (setPc s t).status = s.status := rfl
@[simp] theorem setPc_quiet (s : State) (t : Word) : (setPc s t).quiet = s.quiet := rfl
@[simp] theorem setPc_cfg (s : State) (t : Word) : (setPc s t).cfg = s.cfg := rfl
@[simp] theorem setPc_events (s : State) (t : Word) : (setPc s t).events = s.events := rfl

@[simp] theorem setQuiet_regs (s : State) (b : Bool) : (setQuiet s b).regs = s.regs := rfl
@[simp] theorem setQuiet_pc (s : State) (b : Bool) : (setQuiet s b).pc = s.pc := rfl
@[simp] theorem setQuiet_mem (s : State) (b : Bool) : (setQuiet s b).mem = s.mem := rfl
@[simp] theorem setQuiet_icount (s : State) (b : Bool) : (setQuiet s b).icount = s.icount := rfl
@[simp] theorem setQuiet_status (s : State) (b : Bool) : (setQuiet s b).status = s.status := rfl
@[simp] theorem setQuiet_quiet (s : State) (b : Bool) : (setQuiet s b).quiet = b := rfl
@[simp] theorem setQuiet_cfg (s : State) (b : Bool) : (setQuiet s b).cfg = s.cfg := rfl
@[simp] theorem setQuiet_events (s : State) (b : Bool) : (setQuiet s b).events = s.events := rfl

@[simp] theorem halt_regs (s : State) (cause : Status) (es : List Event) : (halt s cause es).regs = s.regs := rfl
@[simp] theorem halt_pc (s : State) (cause : Status) (es : List Event) : (halt s cause es).pc = s.pc := rfl
@[simp] theorem halt_mem (s : State) (cause : Status) (es : List Event) : (halt s cause es).mem = s.mem := rfl
@[simp] theorem halt_icount (s : State) (cause : Status) (es : List Event) : (halt s cause es).icount = s.icount := rfl
@[simp] theorem halt_status (s : State) (cause : Status) (es : List Event) : (halt s cause es).status = cause := rfl
@[simp] theorem halt_quiet (s : State) (cause : Status) (es : List Event) : (halt s cause es).quiet = s.quiet := rfl
@[simp] theorem halt_cfg (s : State) (cause : Status) (es : List Event) : (halt s cause es).cfg = s.cfg := rfl
@[simp] theorem halt_events (s : State) (cause : Status) (es : List Event) : (halt s cause es).events = s.events ++ es := rfl

@[simp] theorem finishLoad_regs (s : State) (m : Memory) (entry : Word) : (finishLoad s m entry).regs = s.regs := rfl
@[simp] theorem finishLoad_pc (s : State) (m : Memory) (entry : Word) : (finishLoad s m entry).pc = entry := rfl
@[simp] theorem finishLoad_mem (s : State) (m : Memory) (entry : Word) : (finishLoad s m entry).mem = m := rfl
@[simp] theorem finishLoad_icount (s : State) (m : Memory) (entry : Word) : (finishLoad s m entry).icount = s.icount := rfl
@[simp] theorem finishLoad_status (s : State) (m : Memory) (entry : Word) : (finishLoad s m entry).status = .running := rfl
@[simp] theorem finishLoad_quiet (s : State) (m : Memory) (entry : Word) : (finishLoad s m entry).quiet = s.quiet := rfl
@[simp] theorem finishLoad_cfg (s : State) (m : Memory) (entry : Word) : (finishLoad s m entry).cfg = s.cfg := rfl
@[simp] theorem finishLoad_events (s : State) (m : Memory) (entry : Word) : (finishLoad s m entry).events = s.events := rfl

@[simp] theorem resetWith_regs (c : Config) : (State.resetWith c).regs = resetRegs c := rfl
@[simp] theorem resetWith_pc (c : Config) : (State.resetWith c).pc = 0#32 := rfl
@[simp] theorem resetWith_mem (c : Config) : (State.resetWith c).mem = [] := rfl
@[simp] theorem resetWith_icount (c : Config) : (State.resetWith c).icount = 0 := rfl
@[simp] theorem resetWith_status (c : Config) : (State.resetWith c).status = .running := rfl
@[simp] theorem resetWith_quiet (c : Config) : (State.resetWith c).quiet = false := rfl
@[simp] theorem resetWith_cfg (c : Config) : (State.resetWith c).cfg = c := rfl
@[simp] theorem resetWith_events (c : Config) : (State.resetWith c).events = [] := rfl

@[simp] theorem commitReg_pc (s : State) (w : Option (Reg × Word)) : (commitReg s w).pc = s.pc := by
  cases w <;> rfl
@[simp] theorem commitReg_mem (s : State) (w : Option (Reg × Word)) : (commitReg s w).mem = s.mem := by
  cases w <;> rfl
@[simp] theorem commitReg_icount (s : State) (w : Option (Reg × Word)) : (commitReg s w).icount = s.icount := by
  cases w <;> rfl
@[simp] theorem commitReg_status (s : State) (w : Option (Reg × Word)) : (commitReg s w).status = s.status := by
  cases w <;> rfl
@[simp] theorem commitReg_quiet (s : State) (w : Option (Reg × Word)) : (commitReg s w).quiet = s.quiet := by
  cases w <;> rfl
@[simp] theorem commitReg_cfg (s : State) (w : Option (Reg × Word)) : (commitReg s w).cfg = s.cfg := by
  cases w <;> rfl
@[simp] theorem commitReg_events (s : State) (w : Option (Reg × Word)) : (commitReg s w).events = s.events := by
  cases w <;> rfl

@[simp] theorem commitMem_regs (s : State) (w : Option MemWriteInfo) : (commitMem s w).regs = s.regs := by
  cases w <;> rfl
@[simp] theorem commitMem_pc (s : State) (w : Option MemWriteInfo) : (commitMem s w).pc = s.pc := by
  cases w <;> rfl
@[simp] theorem commitMem_icount (s : State) (w : Option MemWriteInfo) : (commitMem s w).icount = s.icount := by
  cases w <;> rfl
@[simp] theorem commitMem_status (s : State) (w : Option MemWriteInfo) : (commitMem s w).status = s.status := by
  cases w <;> rfl
@[simp] theorem commitMem_quiet (s : State) (w : Option MemWriteInfo) : (commitMem s w).quiet = s.quiet := by
  cases w <;> rfl
@[simp] theorem commitMem_cfg (s : State) (w : Option MemWriteInfo) : (commitMem s w).cfg = s.cfg := by
  cases w <;> rfl
@[simp] theorem commitMem_events (s : State) (w : Option MemWriteInfo) : (commitMem s w).events = s.events := by
  cases w <;> rfl

end Sys2Proof.Machine
end

