-- ==== Sys2Proof/Laws/Memory.lean ====
section
/-! SUPPORT. Memory: a read after a write, the canonical form that every memory operation keeps, and the little-endian
values (20_memory.md R48, R49). -/

namespace Sys2Proof.Machine

/-! ### Reads after writes, of one byte -/

theorem memGet_insert (m : Memory) (a b : Nat) (v : Byte) (h : ∀ c ∈ m, c.1 ≠ a) :
    memGet (memInsert m a v) b = if b = a then v else memGet m b := by
  induction m with
  | nil =>
    by_cases hb : b = a
    · simp [memInsert, memGet, hb]
    · simp [memInsert, memGet, hb, Ne.symm hb]
  | cons c m ih =>
    have hc : c.1 ≠ a := h c (by simp)
    have ih := ih (fun d hd => h d (by simp [hd]))
    simp only [memInsert]
    split
    · by_cases hb : b = a
      · simp [memGet, hb]
      · simp [memGet, hb, Ne.symm hb]
    · simp only [memGet, ih]
      by_cases hb : b = a
      · simp [hb, hc]
      · simp [hb]

theorem memGet_erase (m : Memory) (a b : Nat) :
    memGet (memErase m a) b = if b = a then unwrittenByte else memGet m b := by
  induction m with
  | nil => simp [memErase, memGet]
  | cons c m ih =>
    unfold memErase at ih ⊢
    by_cases hc : c.1 = a
    · simp only [List.filter_cons, hc, bne_self_eq_false, Bool.false_eq_true, if_false, ih, memGet]
      by_cases hb : b = a
      · simp [hb]
      · simp [hb, Ne.symm hb]
    · simp only [List.filter_cons, bne_iff_ne, ne_eq, hc, not_false_eq_true, if_true, memGet, ih]
      by_cases hb : b = a
      · simp [hb, hc]
      · simp [hb]

/-- The one law of memory: a write is seen by reads of its own address and by no other. -/
theorem memGet_memSet (m : Memory) (a b : Nat) (v : Byte) :
    memGet (memSet m a v) b = if b = a then v else memGet m b := by
  unfold memSet
  split
  · rename_i h; rw [memGet_erase, h]
  · rw [memGet_insert, memGet_erase]
    · by_cases hb : b = a <;> simp [hb]
    · intro c hc
      simpa [memErase] using (List.mem_filter.mp hc).2

/-- A list of bytes written from `a` on is what reads from `a` on give. -/
theorem memGet_memSetList (bs : List Byte) (m : Memory) (a b : Nat) :
    memGet (memSetList m a bs) b = if h : a ≤ b ∧ b < a + bs.length then bs[b - a]'(by omega) else memGet m b := by
  induction bs generalizing m a with
  | nil => simp only [memSetList, List.length_nil]; rw [dif_neg (by omega)]
  | cons v bs ih =>
    rw [memSetList, ih, memGet_memSet]
    by_cases hb : b = a
    · subst hb
      rw [dif_neg (by omega), dif_pos (by simp)]
      simp
    · by_cases h : a + 1 ≤ b ∧ b < a + 1 + bs.length
      · rw [dif_pos h, dif_pos (by simp only [List.length_cons]; omega)]
        have e : b - a = (b - (a + 1)) + 1 := by omega
        simp [e]
      · rw [dif_neg h, dif_neg (by simp only [List.length_cons]; omega)]
        simp [hb]

/-! ### The canonical form -/

theorem memErase_wf {m : Memory} (h : Memory.wf m) (a : Nat) : Memory.wf (memErase m a) :=
  ⟨h.1.filter _, fun c hc => h.2 c (List.mem_filter.mp hc).1⟩

theorem mem_memInsert {m : Memory} {a : Nat} {v : Byte} {c : Host.Cell} (h : c ∈ memInsert m a v) :
    c = (a, v) ∨ c ∈ m := by
  induction m with
  | nil => simpa [memInsert] using h
  | cons d m ih =>
    unfold memInsert at h
    split at h
    · simpa using h
    · rcases List.mem_cons.mp h with rfl | h
      · exact .inr (by simp)
      · exact (ih h).imp_right (List.mem_cons_of_mem _)

theorem memInsert_wf {m : Memory} (h : Memory.wf m) {a : Nat} {v : Byte} (hv : v ≠ 0#8) (ha : ∀ c ∈ m, c.1 ≠ a) :
    Memory.wf (memInsert m a v) := by
  refine ⟨?_, fun c hc => ?_⟩
  · induction m with
    | nil => simp [memInsert]
    | cons d m ih =>
      obtain ⟨hd, hp⟩ := List.pairwise_cons.mp h.1
      unfold memInsert
      split
      · rename_i hlt
        refine List.pairwise_cons.mpr ⟨fun c hc => ?_, h.1⟩
        rcases List.mem_cons.mp hc with rfl | hc
        · exact hlt
        · exact hlt.trans (hd c hc)
      · rename_i hlt
        have hne : d.1 ≠ a := ha d (by simp)
        refine List.pairwise_cons.mpr ⟨fun c hc => ?_, ih ⟨hp, fun c hc => h.2 c (by simp [hc])⟩ (fun c hc => ha c (by simp [hc]))⟩
        rcases mem_memInsert hc with rfl | hc
        · simp only; omega
        · exact hd c hc
  · rcases mem_memInsert hc with rfl | hc
    · exact hv
    · exact h.2 c hc

/-- Every byte write keeps the canonical form. -/
theorem memSet_wf {m : Memory} (h : Memory.wf m) (a : Nat) (v : Byte) : Memory.wf (memSet m a v) := by
  unfold memSet
  split
  · exact memErase_wf h a
  · rename_i hv
    exact memInsert_wf (memErase_wf h a) hv (fun c hc => by simpa [memErase] using (List.mem_filter.mp hc).2)

/-- Every write of a list of bytes keeps the canonical form. -/
theorem memSetList_wf (bs : List Byte) {m : Memory} (h : Memory.wf m) (a : Nat) : Memory.wf (memSetList m a bs) := by
  induction bs generalizing m a with
  | nil => exact h
  | cons v bs ih => exact ih (memSet_wf h a v) (a + 1)

/-- MemWrite keeps the canonical form. -/
theorem memWrite_wf {m : Memory} (h : Memory.wf m) (a n : Nat) (v : Word) : Memory.wf (memWrite m a n v) :=
  memSetList_wf _ h a

/-! ### No address at or above the capacity -/

theorem memSet_below {m : Memory} {cap : Nat} (h : Memory.below m cap) {a : Nat} (ha : a < cap) (v : Byte) :
    Memory.below (memSet m a v) cap := by
  have he : Memory.below (memErase m a) cap := fun c hc => h c (List.mem_filter.mp hc).1
  unfold memSet
  split
  · exact he
  · intro c hc
    rcases mem_memInsert hc with rfl | hc
    · exact ha
    · exact he c hc

theorem memSetList_below (bs : List Byte) {m : Memory} {cap : Nat} (h : Memory.below m cap) (a : Nat)
    (ha : a + bs.length ≤ cap) : Memory.below (memSetList m a bs) cap := by
  induction bs generalizing m a with
  | nil => exact h
  | cons v bs ih =>
    simp only [List.length_cons] at ha
    exact ih (memSet_below h (by omega) v) (a + 1) (by omega)

@[simp] theorem leBytes_length (n : Nat) (v : Word) : (leBytes n v).length = n := by
  induction n generalizing v with
  | zero => rfl
  | succ n ih => simp [leBytes, ih]

/-- MemWrite within bounds lists no address at or above the capacity. -/
theorem memWrite_below {m : Memory} {cap : Nat} (h : Memory.below m cap) {a n : Nat} (ha : a + n ≤ cap) (v : Word) :
    Memory.below (memWrite m a n v) cap :=
  memSetList_below _ h a (by simpa using ha)

/-! ### Little-endian values -/

theorem leBytes_getElem (n : Nat) (v : Word) (k : Nat) (h : k < (leBytes n v).length) :
    (leBytes n v)[k] = v.extractLsb' (8 * k) 8 := by
  induction n generalizing v k with
  | zero => simp [leBytes] at h
  | succ n ih =>
    cases k with
    | zero =>
      simp only [leBytes, List.getElem_cons_zero]
      exact BitVec.eq_of_getLsbD_eq fun i hi => by simp [hi]
    | succ k =>
      simp only [leBytes, List.getElem_cons_succ, ih]
      exact BitVec.eq_of_getLsbD_eq fun i hi => by
        simp only [BitVec.getLsbD_extractLsb', BitVec.getLsbD_ushiftRight]
        congr 2
        omega

/-- MemWrite puts byte `k` of the value at `a + k` and changes no other byte (20_memory.md R49). -/
theorem memGet_memWrite (m : Memory) (a n : Nat) (v : Word) (b : Nat) :
    memGet (memWrite m a n v) b = if a ≤ b ∧ b < a + n then v.extractLsb' (8 * (b - a)) 8 else memGet m b := by
  unfold memWrite
  rw [memGet_memSetList]
  simp only [leBytes_length, leBytes_getElem]
  split <;> rfl

/-- A bit of MemRead is the bit of the byte it stands in (20_memory.md R48). -/
theorem getLsbD_memRead (m : Memory) (n a i : Nat) :
    (memRead m a n).getLsbD i = (decide (i < 8 * n) && (memGet m (a + i / 8)).getLsbD (i % 8)) := by
  induction n generalizing a i with
  | zero => simp [memRead]
  | succ n ih =>
    simp only [memRead]
    rw [BitVec.getLsbD_append, ih]
    by_cases h : i < 8
    · have h1 : i / 8 = 0 := by omega
      have h2 : i % 8 = i := by omega
      simp [h, h1, h2]
      omega
    · have h1 : a + 1 + (i - 8) / 8 = a + i / 8 := by omega
      have h2 : (i - 8) % 8 = i % 8 := by omega
      simp only [h, h1, h2, if_false]
      congr 1
      simp only [decide_eq_decide]
      omega

/-- MemRead sees only its own bytes. -/
theorem memRead_congr {m m' : Memory} {a n : Nat} (h : ∀ b, a ≤ b → b < a + n → memGet m' b = memGet m b) :
    memRead m' a n = memRead m a n := by
  refine BitVec.eq_of_getLsbD_eq fun i hi => ?_
  rw [getLsbD_memRead, getLsbD_memRead, h (a + i / 8) (by omega) (by omega)]

/-- A read of the bytes just written gives the value's low bytes (44_stores.md R152). -/
theorem memRead_memWrite (m : Memory) (a n : Nat) (v : Word) :
    memRead (memWrite m a n v) a n = v.setWidth (8 * n) := by
  refine BitVec.eq_of_getLsbD_eq fun i hi => ?_
  rw [getLsbD_memRead, memGet_memWrite, if_pos (by omega)]
  simp only [BitVec.getLsbD_extractLsb', BitVec.getLsbD_setWidth]
  have e1 : a + i / 8 - a = i / 8 := by omega
  have e2 : 8 * (i / 8) + i % 8 = i := by omega
  have e3 : i % 8 < 8 := by omega
  simp [e1, e2, e3]

end Sys2Proof.Machine
end

