-- ==== Sys2Proof/Laws/Registers.lean ====
section
/-! SUPPORT. What a register read gives after a register write (10_state.md R22, R23). -/

namespace Sys2Proof.Machine

@[simp] theorem readReg_zero (s : State) : readReg s 0#5 = 0#32 := by simp [readReg]

/-- A register read sees only the register file. -/
theorem readReg_congr {s t : State} (h : t.regs = s.regs) (r : Reg) : readReg t r = readReg s r := by
  simp [readReg, h]

@[simp] theorem writeReg_zero (s : State) (v : Word) : writeReg s 0#5 v = s := by simp [writeReg]

theorem toFin_inj {a b : Reg} (h : (a.toFin : Fin 32).val = (b.toFin : Fin 32).val) : a = b :=
  BitVec.eq_of_toNat_eq h

/-- The one law of the register file: a write is seen by reads of its own register, unless that is x0. -/
theorem readReg_writeReg (s : State) (r : Reg) (v : Word) (q : Reg) :
    readReg (writeReg s r v) q = if q = r ∧ q ≠ 0#5 then v else readReg s q := by
  by_cases hq : q = 0#5
  · simp [hq]
  by_cases hr : r = 0#5
  · subst hr; simp [hq]
  simp only [readReg, writeReg_regs, hq, hr, if_false]
  simp only [Vector.get_eq_getElem]
  by_cases h : q = r
  · subst h; simp [hq]
  · have hne : ¬ (r.toFin : Fin 32).val = (q.toFin : Fin 32).val := fun e => h (toFin_inj e).symm
    simp only [h, false_and, if_false]
    exact Vector.getElem_set_ne _ _ hne

/-- The slot of x0 is never written. -/
@[simp] theorem writeReg_slot_zero (s : State) (r : Reg) (v : Word) : (writeReg s r v).regs.get 0 = s.regs.get 0 := by
  rw [writeReg_regs]
  split
  · rfl
  · rename_i h
    have hne : ¬ (r.toFin : Fin 32).val = 0 := fun e => h (toFin_inj (b := 0#5) e)
    simp only [Vector.get_eq_getElem]
    exact Vector.getElem_set_ne _ _ hne

/-- The register file after reset (10_state.md R43). -/
theorem readReg_resetWith (c : Config) (r : Reg) :
    readReg (State.resetWith c) r = if r = 2#5 then c.spReset else 0#32 := by
  by_cases h0 : r = 0#5
  · subst h0; simp
  simp only [readReg, h0, if_false, resetWith_regs, resetRegs, Vector.get_eq_getElem]
  by_cases h : r = 2#5
  · subst h; rfl
  · have hne : ¬ 2 = (r.toFin : Fin 32).val := fun e => h (toFin_inj (b := 2#5) e.symm)
    rw [Vector.getElem_set_ne _ _ hne]
    simp [h]

end Sys2Proof.Machine
end

