-- ==== Sys2Proof/Laws/Effects.lean ====
section
/-! SUPPORT. What the shared operations can do, said once: an instruction's meaning is the commit of its outcome record,
and a commit's effect is read off that record (40_execution_cycle.md R109, R111). -/

namespace Sys2Proof.Machine

open Sys2Proof.Safety

/-! ### The commit, field by field -/

theorem commit_of_fault {s : State} {o : Effect} {f : MemFaultInfo} (h : o.fault = some f) :
    commit s o = halt (emit s o.events) .haltMemFault [.memFault s.pc f.addr f.size f.acc] := by
  simp [commit, h]

theorem commit_of_ok {s : State} {o : Effect} (h : o.fault = none) :
    commit s o = if o.exit
      then halt (setPc (commitMem (commitReg (emit s o.events) o.rdWrite) o.memWrite) (nextPc s o.target)) .haltExit []
      else setPc (commitMem (commitReg (emit s o.events) o.rdWrite) o.memWrite) (nextPc s o.target) := by
  simp [commit, h]

@[simp] theorem commit_icount (s : State) (o : Effect) : (commit s o).icount = s.icount := by
  unfold commit; split
  · rfl
  · dsimp only; split <;> simp

@[simp] theorem commit_quiet (s : State) (o : Effect) : (commit s o).quiet = s.quiet := by
  unfold commit; split
  · rfl
  · dsimp only; split <;> simp

@[simp] theorem commit_cfg (s : State) (o : Effect) : (commit s o).cfg = s.cfg := by
  unfold commit; split
  · rfl
  · dsimp only; split <;> simp

/-- A commit appends the outcome's events, and the memory fault's own event if there is one. -/
theorem commit_events (s : State) (o : Effect) :
    (commit s o).events = s.events ++ (o.events ++ match o.fault with
      | some f => [.memFault s.pc f.addr f.size f.acc]
      | none => []) := by
  cases h : o.fault with
  | some f => simp [commit_of_fault h]
  | none => rw [commit_of_ok h]; split <;> simp

/-- A commit writes a register only where the outcome says so and there is no fault. -/
theorem commit_regs (s : State) (o : Effect) :
    (commit s o).regs = match o.fault, o.rdWrite with
      | none, some (r, v) => (writeReg s r v).regs
      | _, _ => s.regs := by
  cases h : o.fault with
  | some f => simp [commit_of_fault h]
  | none => rw [commit_of_ok h]; split <;> cases h2 : o.rdWrite <;> simp [commitReg, writeReg_regs]

/-- A commit stores only where the outcome says so and there is no fault. -/
theorem commit_mem (s : State) (o : Effect) :
    (commit s o).mem = match o.fault, o.memWrite with
      | none, some w => memWrite s.mem w.addr.toNat (widthBytes w.size) w.value
      | _, _ => s.mem := by
  cases h : o.fault with
  | some f => simp [commit_of_fault h]
  | none => rw [commit_of_ok h]; split <;> cases h2 : o.memWrite <;> simp [commitMem]

theorem commit_pc (s : State) (o : Effect) :
    (commit s o).pc = match o.fault with
      | some _ => s.pc
      | none => nextPc s o.target := by
  cases h : o.fault with
  | some f => simp [commit_of_fault h]
  | none => rw [commit_of_ok h]; split <;> simp

theorem commit_status (s : State) (o : Effect) :
    (commit s o).status = match o.fault with
      | some _ => .haltMemFault
      | none => if o.exit then .haltExit else s.status := by
  cases h : o.fault with
  | some f => simp [commit_of_fault h]
  | none => rw [commit_of_ok h]; split <;> simp

/-! ### What each shape of outcome does -/

theorem commit_effLink (s : State) (rd : Reg) (v t : Word) : Retires s (commit s (effLink rd v t)) rd v t := by
  refine ⟨⟨fun r => ?_, ?_⟩, ?_, fun a => ?_, ⟨?_, ?_, ?_⟩, ?_, ?_⟩ <;>
    simp [commit_regs, commit_pc, commit_mem, commit_status, commit_events, effLink, nextPc]
  rw [readReg_congr (s := writeReg s rd v) (by simp [commit_regs])]
  exact readReg_writeReg s rd v r

theorem commit_effWrite (s : State) (rd : Reg) (v : Word) :
    Retires s (commit s (effWrite rd v)) rd v (s.pc + 4#32) := by
  have h : commit s (effWrite rd v) = commit s (effLink rd v (s.pc + 4#32)) := rfl
  rw [h]; exact commit_effLink s rd v _

theorem commit_effBranch (s : State) (taken : Bool) (t : Word) :
    RetiresQuietly s (commit s (effBranch taken t)) (if taken then t else s.pc + 4#32) [] := by
  cases taken <;> refine ⟨?_, ?_, fun a => ?_, ⟨?_, ?_, ?_⟩, ?_, ?_⟩ <;>
    simp [commit_regs, commit_pc, commit_mem, commit_status, commit_events, effBranch, nextPc]

theorem commit_events_only (s : State) (es : List Event) :
    RetiresQuietly s (commit s { events := es }) (s.pc + 4#32) es := by
  refine ⟨?_, ?_, fun a => ?_, ⟨?_, ?_, ?_⟩, ?_, ?_⟩ <;>
    simp [commit_regs, commit_pc, commit_mem, commit_status, commit_events, nextPc]

theorem commit_memFault (s : State) (ea : Word) (w : Width) (k : AccessKind) :
    Halts s (commit s { fault := some ⟨ea, w, k⟩ }) .haltMemFault [.memFault s.pc ea w k] := by
  refine ⟨?_, ?_, ?_, ?_, fun a => ?_, ⟨?_, ?_, ?_⟩⟩ <;>
    simp [commit_regs, commit_pc, commit_mem, commit_status, commit_events]

theorem commit_effLoad_in {s : State} {ea : Word} {w : Width} (h : InBounds s ea.toNat (widthBytes w)) (rd : Reg)
    (ext : BitVec (8 * widthBytes w) → Word) :
    Retires s (commit s (effLoad s rd ea w ext)) rd (ext (memRead s.mem ea.toNat (widthBytes w))) (s.pc + 4#32) := by
  rw [effLoad, if_pos h]; exact commit_effWrite s rd _

theorem commit_effLoad_out {s : State} {ea : Word} {w : Width} (h : ¬ InBounds s ea.toNat (widthBytes w)) (rd : Reg)
    (ext : BitVec (8 * widthBytes w) → Word) :
    Halts s (commit s (effLoad s rd ea w ext)) .haltMemFault [.memFault s.pc ea w .load] := by
  rw [effLoad, if_neg h]; exact commit_memFault s ea w .load

theorem commit_effStore_in {s : State} {ea : Word} {w : Width} (h : InBounds s ea.toNat (widthBytes w)) (v : Word) :
    RetiresStore s (commit s (effStore s ea w v)) ea.toNat (widthBytes w) v := by
  rw [effStore, if_pos h]
  refine ⟨fun a => ?_, ?_, ?_, ⟨?_, ?_, ?_⟩, ?_, ?_⟩ <;>
    simp [commit_regs, commit_pc, commit_mem, commit_status, commit_events, nextPc, memGet_memWrite]

theorem commit_effStore_out {s : State} {ea : Word} {w : Width} (h : ¬ InBounds s ea.toNat (widthBytes w)) (v : Word) :
    Halts s (commit s (effStore s ea w v)) .haltMemFault [.memFault s.pc ea w .store] := by
  rw [effStore, if_neg h]; exact commit_memFault s ea w .store

/-! ### Every meaning is a commit -/

/-- The outcome record of each instruction, in a table that proofs go through. -/
def effectOf (s : State) : Instr → Effect
  | .addi rd rs1 imm => effWrite rd (readReg s rs1 + imm12 imm)
  | .slti rd rs1 imm => effWrite rd (boolWord (ltSigned (readReg s rs1) (imm12 imm)))
  | .sltiu rd rs1 imm => effWrite rd (boolWord (ltUnsigned (readReg s rs1) (imm12 imm)))
  | .xori rd rs1 imm => effWrite rd (readReg s rs1 ^^^ imm12 imm)
  | .ori rd rs1 imm => effWrite rd (readReg s rs1 ||| imm12 imm)
  | .andi rd rs1 imm => effWrite rd (readReg s rs1 &&& imm12 imm)
  | .slli rd rs1 sh => effWrite rd (readReg s rs1 <<< shamtValue sh)
  | .srli rd rs1 sh => effWrite rd (readReg s rs1 >>> shamtValue sh)
  | .srai rd rs1 sh => effWrite rd ((readReg s rs1).sshiftRight (shamtValue sh))
  | .add rd rs1 rs2 => effWrite rd (readReg s rs1 + readReg s rs2)
  | .sub rd rs1 rs2 => effWrite rd (readReg s rs1 - readReg s rs2)
  | .sll rd rs1 rs2 => effWrite rd (readReg s rs1 <<< regShamt (readReg s rs2))
  | .slt rd rs1 rs2 => effWrite rd (boolWord (ltSigned (readReg s rs1) (readReg s rs2)))
  | .sltu rd rs1 rs2 => effWrite rd (boolWord (ltUnsigned (readReg s rs1) (readReg s rs2)))
  | .xor rd rs1 rs2 => effWrite rd (readReg s rs1 ^^^ readReg s rs2)
  | .srl rd rs1 rs2 => effWrite rd (readReg s rs1 >>> regShamt (readReg s rs2))
  | .sra rd rs1 rs2 => effWrite rd ((readReg s rs1).sshiftRight (regShamt (readReg s rs2)))
  | .or rd rs1 rs2 => effWrite rd (readReg s rs1 ||| readReg s rs2)
  | .and rd rs1 rs2 => effWrite rd (readReg s rs1 &&& readReg s rs2)
  | .lb rd rs1 imm => effLoad s rd (effAddr s rs1 imm) .byte (BitVec.signExtend 32)
  | .lh rd rs1 imm => effLoad s rd (effAddr s rs1 imm) .half (BitVec.signExtend 32)
  | .lw rd rs1 imm => effLoad s rd (effAddr s rs1 imm) .word (BitVec.setWidth 32)
  | .lbu rd rs1 imm => effLoad s rd (effAddr s rs1 imm) .byte (BitVec.setWidth 32)
  | .lhu rd rs1 imm => effLoad s rd (effAddr s rs1 imm) .half (BitVec.setWidth 32)
  | .sb rs2 rs1 imm => effStore s (effAddr s rs1 imm) .byte (readReg s rs2)
  | .sh rs2 rs1 imm => effStore s (effAddr s rs1 imm) .half (readReg s rs2)
  | .sw rs2 rs1 imm => effStore s (effAddr s rs1 imm) .word (readReg s rs2)
  | .beq rs1 rs2 off => effBranch (readReg s rs1 == readReg s rs2) (branchTarget s off)
  | .bne rs1 rs2 off => effBranch (readReg s rs1 != readReg s rs2) (branchTarget s off)
  | .blt rs1 rs2 off => effBranch (ltSigned (readReg s rs1) (readReg s rs2)) (branchTarget s off)
  | .bge rs1 rs2 off => effBranch (!ltSigned (readReg s rs1) (readReg s rs2)) (branchTarget s off)
  | .bltu rs1 rs2 off => effBranch (ltUnsigned (readReg s rs1) (readReg s rs2)) (branchTarget s off)
  | .bgeu rs1 rs2 off => effBranch (!ltUnsigned (readReg s rs1) (readReg s rs2)) (branchTarget s off)
  | .lui rd imm20 => effWrite rd (immU imm20)
  | .auipc rd imm20 => effWrite rd (s.pc + immU imm20)
  | .jal rd off => effLink rd (linkValue s) (jalTarget s off)
  | .jalr rd rs1 imm => effLink rd (linkValue s) (jalrTarget s rd rs1 imm)
  | .ecall => effSyscall s

/-- Every instruction's meaning is the commit of its outcome record (40_execution_cycle.md R101). -/
theorem exec_eq_commit (i : Instr) (s : State) : exec i s = .next (commit s (effectOf s i)) := by
  cases i <;> rfl

/-! ### What an outcome record can hold -/

theorem effLoad_cases (s : State) (rd : Reg) (ea : Word) (w : Width) (ext : BitVec (8 * widthBytes w) → Word) :
    (InBounds s ea.toNat (widthBytes w) ∧ ∃ v, effLoad s rd ea w ext = effWrite rd v) ∨
      (¬ InBounds s ea.toNat (widthBytes w) ∧ effLoad s rd ea w ext = { fault := some ⟨ea, w, .load⟩ }) := by
  unfold effLoad
  split
  · rename_i h; exact .inl ⟨h, _, rfl⟩
  · rename_i h; exact .inr ⟨h, rfl⟩

theorem effStore_cases (s : State) (ea : Word) (w : Width) (v : Word) :
    (InBounds s ea.toNat (widthBytes w) ∧ effStore s ea w v = { memWrite := some ⟨ea, w, v⟩ }) ∨
      (¬ InBounds s ea.toNat (widthBytes w) ∧ effStore s ea w v = { fault := some ⟨ea, w, .store⟩ }) := by
  unfold effStore
  split
  · rename_i h; exact .inl ⟨h, rfl⟩
  · rename_i h; exact .inr ⟨h, rfl⟩

/-- The service of a system call, by its number (48_system.md R173). -/
theorem effSyscall_cases (s : State) :
    ((readReg s 17#5).toNat = 1 ∧ effSyscall s = { events := [.printInt (readReg s 10#5).toInt] }) ∨
      ((readReg s 17#5).toNat = 4 ∧ effSyscall s = { events := [.printStr (syscallString s)] }) ∨
      ((readReg s 17#5).toNat = 10 ∧ effSyscall s = { exit := true }) ∨
      ((readReg s 17#5).toNat ≠ 1 ∧ (readReg s 17#5).toNat ≠ 4 ∧ (readReg s 17#5).toNat ≠ 10 ∧
        effSyscall s = { events := [.unknownSyscall (readReg s 17#5)] }) := by
  unfold effSyscall syscallNumReg syscallArgReg
  dsimp only
  split
  · rename_i h; exact .inl ⟨h, rfl⟩
  · split
    · rename_i h; exact .inr (.inl ⟨h, rfl⟩)
    · split
      · rename_i h; exact .inr (.inr (.inl ⟨h, rfl⟩))
      · rename_i h1 h2 h3; exact .inr (.inr (.inr ⟨h1, h2, h3, rfl⟩))

/-- The first case of `effectOf_cases`, for an instruction that writes its register and touches no memory. -/
theorem writes_reg {s : State} {i : Instr} {rd : Reg} {v : Word} {t : Target} (hd : destReg i = some rd)
    (he : effectOf s i = { rdWrite := some (rd, v), target := t }) (ha : dataAccess s i = none) :
    ∃ rd v t, destReg i = some rd ∧ effectOf s i = { rdWrite := some (rd, v), target := t } ∧
      ∀ ea w k, dataAccess s i = some (ea, w, k) → InBounds s ea.toNat (widthBytes w) ∧ k = .load :=
  ⟨rd, v, t, hd, he, fun ea w k h => by simp [ha] at h⟩

/-- The first two cases of `effectOf_cases`, for a load. -/
theorem loads {s : State} {i : Instr} {rd : Reg} {ea : Word} {w : Width} {ext : BitVec (8 * widthBytes w) → Word}
    (hd : destReg i = some rd) (he : effectOf s i = effLoad s rd ea w ext) (ha : dataAccess s i = some (ea, w, .load)) :
    (∃ rd v t, destReg i = some rd ∧ effectOf s i = { rdWrite := some (rd, v), target := t } ∧
      ∀ ea w k, dataAccess s i = some (ea, w, k) → InBounds s ea.toNat (widthBytes w) ∧ k = .load) ∨
      ∃ ea w k, dataAccess s i = some (ea, w, k) ∧ ¬ InBounds s ea.toNat (widthBytes w) ∧
        effectOf s i = { fault := some ⟨ea, w, k⟩ } := by
  rcases effLoad_cases s rd ea w ext with ⟨hb, v, hv⟩ | ⟨hb, hv⟩
  · refine .inl ⟨rd, v, .seq, hd, he.trans hv, fun ea' w' k' h => ?_⟩
    rw [ha] at h
    obtain ⟨rfl, rfl, rfl⟩ := h
    exact ⟨hb, rfl⟩
  · exact .inr ⟨ea, w, .load, ha, hb, he.trans hv⟩

/-- The second and third cases of `effectOf_cases`, for a store. -/
theorem stores {s : State} {i : Instr} {ea : Word} {w : Width} {v : Word} (he : effectOf s i = effStore s ea w v)
    (ha : dataAccess s i = some (ea, w, .store)) :
    (∃ ea w k, dataAccess s i = some (ea, w, k) ∧ ¬ InBounds s ea.toNat (widthBytes w) ∧
        effectOf s i = { fault := some ⟨ea, w, k⟩ }) ∨
      ∃ ea w v, dataAccess s i = some (ea, w, .store) ∧ InBounds s ea.toNat (widthBytes w) ∧
        effectOf s i = { memWrite := some ⟨ea, w, v⟩ } := by
  rcases effStore_cases s ea w v with ⟨hb, hv⟩ | ⟨hb, hv⟩
  · exact .inr ⟨ea, w, v, ha, hb, he.trans hv⟩
  · exact .inl ⟨ea, w, .store, ha, hb, he.trans hv⟩

/-- Everything an instruction's outcome can be: it writes its destination register and goes on or jumps, is a memory
access out of bounds, stores in bounds, transfers control without a link, or is a system call. -/
theorem effectOf_cases (s : State) (i : Instr) :
    (∃ rd v t, destReg i = some rd ∧ effectOf s i = { rdWrite := some (rd, v), target := t } ∧
        ∀ ea w k, dataAccess s i = some (ea, w, k) → InBounds s ea.toNat (widthBytes w) ∧ k = .load) ∨
      (∃ ea w k, dataAccess s i = some (ea, w, k) ∧ ¬ InBounds s ea.toNat (widthBytes w) ∧
        effectOf s i = { fault := some ⟨ea, w, k⟩ }) ∨
      (∃ ea w v, dataAccess s i = some (ea, w, .store) ∧ InBounds s ea.toNat (widthBytes w) ∧
        effectOf s i = { memWrite := some ⟨ea, w, v⟩ }) ∨
      (∃ b t, destReg i = none ∧ dataAccess s i = none ∧ effectOf s i = effBranch b t) ∨
      (i = .ecall ∧ effectOf s i = effSyscall s) := by
  cases i with
  | addi rd _ _ => exact .inl (writes_reg rfl rfl rfl)
  | slti rd _ _ => exact .inl (writes_reg rfl rfl rfl)
  | sltiu rd _ _ => exact .inl (writes_reg rfl rfl rfl)
  | xori rd _ _ => exact .inl (writes_reg rfl rfl rfl)
  | ori rd _ _ => exact .inl (writes_reg rfl rfl rfl)
  | andi rd _ _ => exact .inl (writes_reg rfl rfl rfl)
  | slli rd _ _ => exact .inl (writes_reg rfl rfl rfl)
  | srli rd _ _ => exact .inl (writes_reg rfl rfl rfl)
  | srai rd _ _ => exact .inl (writes_reg rfl rfl rfl)
  | add rd _ _ => exact .inl (writes_reg rfl rfl rfl)
  | sub rd _ _ => exact .inl (writes_reg rfl rfl rfl)
  | sll rd _ _ => exact .inl (writes_reg rfl rfl rfl)
  | slt rd _ _ => exact .inl (writes_reg rfl rfl rfl)
  | sltu rd _ _ => exact .inl (writes_reg rfl rfl rfl)
  | xor rd _ _ => exact .inl (writes_reg rfl rfl rfl)
  | srl rd _ _ => exact .inl (writes_reg rfl rfl rfl)
  | sra rd _ _ => exact .inl (writes_reg rfl rfl rfl)
  | or rd _ _ => exact .inl (writes_reg rfl rfl rfl)
  | and rd _ _ => exact .inl (writes_reg rfl rfl rfl)
  | lui rd _ => exact .inl (writes_reg rfl rfl rfl)
  | auipc rd _ => exact .inl (writes_reg rfl rfl rfl)
  | jal rd off => exact .inl ⟨_, _, _, rfl, rfl, fun _ _ _ h => nomatch h⟩
  | jalr rd _ _ => exact .inl ⟨_, _, _, rfl, rfl, fun _ _ _ h => nomatch h⟩
  | lb rd rs1 imm => exact (loads rfl rfl rfl).imp_right .inl
  | lh rd rs1 imm => exact (loads rfl rfl rfl).imp_right .inl
  | lw rd rs1 imm => exact (loads rfl rfl rfl).imp_right .inl
  | lbu rd rs1 imm => exact (loads rfl rfl rfl).imp_right .inl
  | lhu rd rs1 imm => exact (loads rfl rfl rfl).imp_right .inl
  | sb rs2 rs1 imm => exact .inr ((stores rfl rfl).imp_right .inl)
  | sh rs2 rs1 imm => exact .inr ((stores rfl rfl).imp_right .inl)
  | sw rs2 rs1 imm => exact .inr ((stores rfl rfl).imp_right .inl)
  | beq _ _ _ => exact .inr (.inr (.inr (.inl ⟨_, _, rfl, rfl, rfl⟩)))
  | bne _ _ _ => exact .inr (.inr (.inr (.inl ⟨_, _, rfl, rfl, rfl⟩)))
  | blt _ _ _ => exact .inr (.inr (.inr (.inl ⟨_, _, rfl, rfl, rfl⟩)))
  | bge _ _ _ => exact .inr (.inr (.inr (.inl ⟨_, _, rfl, rfl, rfl⟩)))
  | bltu _ _ _ => exact .inr (.inr (.inr (.inl ⟨_, _, rfl, rfl, rfl⟩)))
  | bgeu _ _ _ => exact .inr (.inr (.inr (.inl ⟨_, _, rfl, rfl, rfl⟩)))
  | ecall => exact .inr (.inr (.inr (.inr ⟨rfl, rfl⟩)))

end Sys2Proof.Machine
end

