-- ==== Sys2Proof/Laws/PerInstr.lean ====
section
/-! SUPPORT. A statement made per instruction: the low two bits of an instruction's word are 11, so its opcode is never
that of a word the decoder calls unknown for its low bits (30_encoding.md R71). -/

namespace Sys2Proof.Laws.LowBits

/-- The word of the instruction ends in 11. -/
def Statement (i : Instr) : Prop := (encode i).extractLsb' 0 2 = 3#2

/-- A word whose last field is an opcode ending in 11 ends in 11. -/
theorem of_opcode {n : Nat} (x : BitVec n) (opc : BitVec 7) (h : opc.extractLsb' 0 2 = 3#2) :
    (x ++ opc).extractLsb' 0 2 = 3#2 := by
  rw [← h]
  refine BitVec.eq_of_getLsbD_eq fun i hi => ?_
  simp only [BitVec.getLsbD_extractLsb', BitVec.getLsbD_append]
  have : i < 7 := by omega
  simp [this]

theorem addi (rd rs1 : Reg) (imm : BitVec 12) : Statement (.addi rd rs1 imm) := of_opcode _ _ (by decide)
theorem slti (rd rs1 : Reg) (imm : BitVec 12) : Statement (.slti rd rs1 imm) := of_opcode _ _ (by decide)
theorem sltiu (rd rs1 : Reg) (imm : BitVec 12) : Statement (.sltiu rd rs1 imm) := of_opcode _ _ (by decide)
theorem xori (rd rs1 : Reg) (imm : BitVec 12) : Statement (.xori rd rs1 imm) := of_opcode _ _ (by decide)
theorem ori (rd rs1 : Reg) (imm : BitVec 12) : Statement (.ori rd rs1 imm) := of_opcode _ _ (by decide)
theorem andi (rd rs1 : Reg) (imm : BitVec 12) : Statement (.andi rd rs1 imm) := of_opcode _ _ (by decide)
theorem slli (rd rs1 : Reg) (shamt : BitVec 5) : Statement (.slli rd rs1 shamt) := of_opcode _ _ (by decide)
theorem srli (rd rs1 : Reg) (shamt : BitVec 5) : Statement (.srli rd rs1 shamt) := of_opcode _ _ (by decide)
theorem srai (rd rs1 : Reg) (shamt : BitVec 5) : Statement (.srai rd rs1 shamt) := of_opcode _ _ (by decide)
theorem add (rd rs1 rs2 : Reg) : Statement (.add rd rs1 rs2) := of_opcode _ _ (by decide)
theorem sub (rd rs1 rs2 : Reg) : Statement (.sub rd rs1 rs2) := of_opcode _ _ (by decide)
theorem sll (rd rs1 rs2 : Reg) : Statement (.sll rd rs1 rs2) := of_opcode _ _ (by decide)
theorem slt (rd rs1 rs2 : Reg) : Statement (.slt rd rs1 rs2) := of_opcode _ _ (by decide)
theorem sltu (rd rs1 rs2 : Reg) : Statement (.sltu rd rs1 rs2) := of_opcode _ _ (by decide)
theorem xor (rd rs1 rs2 : Reg) : Statement (.xor rd rs1 rs2) := of_opcode _ _ (by decide)
theorem srl (rd rs1 rs2 : Reg) : Statement (.srl rd rs1 rs2) := of_opcode _ _ (by decide)
theorem sra (rd rs1 rs2 : Reg) : Statement (.sra rd rs1 rs2) := of_opcode _ _ (by decide)
theorem or (rd rs1 rs2 : Reg) : Statement (.or rd rs1 rs2) := of_opcode _ _ (by decide)
theorem and (rd rs1 rs2 : Reg) : Statement (.and rd rs1 rs2) := of_opcode _ _ (by decide)
theorem lb (rd rs1 : Reg) (imm : BitVec 12) : Statement (.lb rd rs1 imm) := of_opcode _ _ (by decide)
theorem lh (rd rs1 : Reg) (imm : BitVec 12) : Statement (.lh rd rs1 imm) := of_opcode _ _ (by decide)
theorem lw (rd rs1 : Reg) (imm : BitVec 12) : Statement (.lw rd rs1 imm) := of_opcode _ _ (by decide)
theorem lbu (rd rs1 : Reg) (imm : BitVec 12) : Statement (.lbu rd rs1 imm) := of_opcode _ _ (by decide)
theorem lhu (rd rs1 : Reg) (imm : BitVec 12) : Statement (.lhu rd rs1 imm) := of_opcode _ _ (by decide)
theorem sb (rs2 rs1 : Reg) (imm : BitVec 12) : Statement (.sb rs2 rs1 imm) := of_opcode _ _ (by decide)
theorem sh (rs2 rs1 : Reg) (imm : BitVec 12) : Statement (.sh rs2 rs1 imm) := of_opcode _ _ (by decide)
theorem sw (rs2 rs1 : Reg) (imm : BitVec 12) : Statement (.sw rs2 rs1 imm) := of_opcode _ _ (by decide)
theorem beq (rs1 rs2 : Reg) (offset : BitVec 13) : Statement (.beq rs1 rs2 offset) := of_opcode _ _ (by decide)
theorem bne (rs1 rs2 : Reg) (offset : BitVec 13) : Statement (.bne rs1 rs2 offset) := of_opcode _ _ (by decide)
theorem blt (rs1 rs2 : Reg) (offset : BitVec 13) : Statement (.blt rs1 rs2 offset) := of_opcode _ _ (by decide)
theorem bge (rs1 rs2 : Reg) (offset : BitVec 13) : Statement (.bge rs1 rs2 offset) := of_opcode _ _ (by decide)
theorem bltu (rs1 rs2 : Reg) (offset : BitVec 13) : Statement (.bltu rs1 rs2 offset) := of_opcode _ _ (by decide)
theorem bgeu (rs1 rs2 : Reg) (offset : BitVec 13) : Statement (.bgeu rs1 rs2 offset) := of_opcode _ _ (by decide)
theorem lui (rd : Reg) (imm20 : BitVec 20) : Statement (.lui rd imm20) := of_opcode _ _ (by decide)
theorem auipc (rd : Reg) (imm20 : BitVec 20) : Statement (.auipc rd imm20) := of_opcode _ _ (by decide)
theorem jal (rd : Reg) (offset : BitVec 21) : Statement (.jal rd offset) := of_opcode _ _ (by decide)
theorem jalr (rd rs1 : Reg) (imm : BitVec 12) : Statement (.jalr rd rs1 imm) := of_opcode _ _ (by decide)
theorem ecall : Statement .ecall := rfl

end Sys2Proof.Laws.LowBits
end

