-- ==== Sys2Proof/Laws/Step.lean ====
section
/-! SUPPORT. Everything one step can do (40_execution_cycle.md R101), said once. -/

namespace Sys2Proof.Machine

open Sys2Proof.Safety

theorem misalignedFetch_iff (s : State) : misalignedFetch s = true ↔ StopsMisaligned s := by
  unfold misalignedFetch StopsMisaligned
  simp only [Bool.and_eq_true, beq_iff_eq, bne_iff_ne, ne_eq]
  refine and_congr_right fun _ => not_congr ?_
  rw [← BitVec.toNat_inj]
  simp [BitVec.extractLsb'_toNat]

theorem fetch_in {s : State} (h : ¬ FetchOob s) : fetch s = (wordAtPc s, false) := by
  simp only [FetchOob, not_not] at h
  simp [fetch, h, wordAtPc]

theorem fetch_out {s : State} (h : FetchOob s) : fetch s = (0#32, true) := by
  simp [fetch, h]

theorem step_of_done {s t : State} (h : beginStep s = .done t) : step s = .next t := by simp [step, h]

theorem step_of_execute {s t : State} {i : Instr} (h : beginStep s = .execute i t) : step s = exec i t := by
  simp [step, h]

/-- The cases of one step. A step that executes an instruction is that instruction's meaning in the counted state. -/
theorem step_cases (s : State) :
    (s.status ≠ .running ∧ step s = .next s) ∨
      (s.status = .running ∧ StopsMisaligned s ∧ step s = .next (haltMisaligned s)) ∨
      (s.status = .running ∧ ¬ StopsMisaligned s ∧ FetchOob s ∧ step s = .next (haltZeroWord s true)) ∨
      (s.status = .running ∧ ¬ StopsMisaligned s ∧ ¬ FetchOob s ∧ wordAtPc s = 0#32 ∧
        step s = .next (haltZeroWord s false)) ∨
      (∃ w k, FetchesWord s w ∧ decode s.cfg.strictDecode w = .fault k ∧
        step s = .next (takeDecodeFault (counted s) w k)) ∨
      (∃ w i, FetchesWord s w ∧ decode s.cfg.strictDecode w = .instr i ∧ step s = exec i (counted s)) := by
  by_cases hr : s.status = .running
  swap
  · exact .inl ⟨hr, by simp [step, beginStep, running, hr]⟩
  by_cases hm : StopsMisaligned s
  · exact .inr (.inl ⟨hr, hm, by simp [step, beginStep, running, hr, (misalignedFetch_iff s).2 hm]⟩)
  have hm' : misalignedFetch s = false := by
    rw [← Bool.not_eq_true, misalignedFetch_iff]; exact hm
  have hb : beginStep s = decodeAndCount s (fetch s).1 (fetch s).2 := by simp [beginStep, running, hr, hm']
  by_cases ho : FetchOob s
  · refine .inr (.inr (.inl ⟨hr, hm, ho, step_of_done ?_⟩))
    rw [hb, fetch_out ho]
    simp [decodeAndCount, (decode_eq_zero_iff _ _).2]
  rw [fetch_in ho] at hb
  by_cases hw : wordAtPc s = 0#32
  · refine .inr (.inr (.inr (.inl ⟨hr, hm, ho, hw, step_of_done ?_⟩)))
    rw [hb]
    simp [decodeAndCount, (decode_eq_zero_iff _ _).2 hw]
  have hf : FetchesWord s (wordAtPc s) := ⟨hr, hm, ho, rfl, hw⟩
  cases hd : decode s.cfg.strictDecode (wordAtPc s) with
  | zero => exact absurd ((decode_eq_zero_iff _ _).1 hd) hw
  | fault k =>
    refine .inr (.inr (.inr (.inr (.inl ⟨_, k, hf, hd, step_of_done ?_⟩))))
    rw [hb, decodeAndCount, hd, counted, countInstr]
  | instr i =>
    refine .inr (.inr (.inr (.inr (.inr ⟨_, i, hf, hd, step_of_execute ?_⟩))))
    rw [hb, decodeAndCount, hd, counted, countInstr]

/-! ### Each fact below picks one case of `step_cases` -/

theorem step_of_halted {s : State} (h : s.status ≠ .running) : step s = .next s := by
  rcases step_cases s with ⟨-, h'⟩ | ⟨hr, -⟩ | ⟨hr, -⟩ | ⟨hr, -⟩ | ⟨w, k, hf, -⟩ | ⟨w, i, hf, -⟩
  · exact h'
  all_goals first | exact absurd hr h | exact absurd hf.1 h

theorem step_of_misaligned {s : State} (hr : s.status = .running) (hm : StopsMisaligned s) :
    step s = .next (haltMisaligned s) := by
  rcases step_cases s with ⟨h, -⟩ | ⟨-, -, h⟩ | ⟨-, h, -⟩ | ⟨-, h, -⟩ | ⟨w, k, hf, -⟩ | ⟨w, i, hf, -⟩
  · exact absurd hr h
  · exact h
  all_goals first | exact absurd hm h | exact absurd hm hf.2.1

theorem step_of_oob {s : State} (hr : s.status = .running) (hm : ¬ StopsMisaligned s) (ho : FetchOob s) :
    step s = .next (haltZeroWord s true) := by
  rcases step_cases s with ⟨h, -⟩ | ⟨-, h, -⟩ | ⟨-, -, -, h⟩ | ⟨-, -, h, -⟩ | ⟨w, k, hf, -⟩ | ⟨w, i, hf, -⟩
  · exact absurd hr h
  · exact absurd h hm
  · exact h
  all_goals first | exact absurd ho h | exact absurd ho hf.2.2.1

theorem step_of_zero {s : State} (hr : s.status = .running) (hm : ¬ StopsMisaligned s) (ho : ¬ FetchOob s)
    (hw : wordAtPc s = 0#32) : step s = .next (haltZeroWord s false) := by
  rcases step_cases s with ⟨h, -⟩ | ⟨-, h, -⟩ | ⟨-, -, h, -⟩ | ⟨-, -, -, -, h⟩ | ⟨w, k, hf, -⟩ | ⟨w, i, hf, -⟩
  · exact absurd hr h
  · exact absurd h hm
  · exact absurd h ho
  · exact h
  all_goals exact absurd (hf.2.2.2.1 ▸ hw) hf.2.2.2.2

theorem step_of_fault {s : State} {w : Word} {k : DecodeFaultKind} (hf : FetchesWord s w)
    (hd : decode s.cfg.strictDecode w = .fault k) : step s = .next (takeDecodeFault (counted s) w k) := by
  obtain ⟨hr, hm, ho, rfl, hw⟩ := hf
  rcases step_cases s with ⟨h, -⟩ | ⟨-, h, -⟩ | ⟨-, -, h, -⟩ | ⟨-, -, -, h, -⟩ | ⟨w, k', hf, hd', h⟩ | ⟨w, i, hf, hd', h⟩
  · exact absurd hr h
  · exact absurd h hm
  · exact absurd h ho
  · exact absurd h hw
  · obtain ⟨-, -, -, rfl, -⟩ := hf
    cases hd.symm.trans hd'
    exact h
  · obtain ⟨-, -, -, rfl, -⟩ := hf
    cases hd.symm.trans hd'

theorem step_of_instr {s : State} {w : Word} {i : Instr} (hf : FetchesWord s w)
    (hd : decode s.cfg.strictDecode w = .instr i) : step s = exec i (counted s) := by
  obtain ⟨hr, hm, ho, rfl, hw⟩ := hf
  rcases step_cases s with ⟨h, -⟩ | ⟨-, h, -⟩ | ⟨-, -, h, -⟩ | ⟨-, -, -, h, -⟩ | ⟨w, k', hf, hd', h⟩ | ⟨w, i', hf, hd', h⟩
  · exact absurd hr h
  · exact absurd h hm
  · exact absurd h ho
  · exact absurd h hw
  · obtain ⟨-, -, -, rfl, -⟩ := hf
    cases hd.symm.trans hd'
  · obtain ⟨-, -, -, rfl, -⟩ := hf
    cases hd.symm.trans hd'
    exact h

end Sys2Proof.Machine
end

