-- ==== Sys2Proof/Tests/Slice0.lean ====
section
/-! SUPPORT. The model's own tests. Words and results are those of 95_test_vectors.md, sections L1 and L2, written out by
hand from the spec; the name of a vector stands in each comment. After them, for each obligation that has hypotheses, a
concrete state and operands that meet them. -/

namespace Sys2Proof.Tests

open Sys2Proof.Machine Sys2Proof.Safety

/-! ### A small state: capacity 0x1000, the word under test at pc, every register 0 but those listed -/

/-- The parameters of the vectors. -/
def vecConfig : Config := { defaultConfig with memCapacity := 0x1000 }

/-- The state with the listed registers written. -/
def setRegs (s : State) : List (Reg × Word) → State
  | [] => s
  | (r, v) :: rs => setRegs (writeReg s r v) rs

/-- The start state with every choice open. -/
def vecWith (c : Config) (pc w : Word) (regs : List (Reg × Word)) (a : Nat) (bytes : List Byte) : State :=
  setRegs
    { regs := Vector.replicate 32 0#32, pc := pc, mem := memSetList (memWrite [] pc.toNat 4 w) a bytes
      icount := 0, status := .running, quiet := false, cfg := c, events := [] } regs

/-- The start state of the vectors, with bytes in memory. -/
def vecMem (w : Word) (regs : List (Reg × Word)) (a : Nat) (bytes : List Byte) : State :=
  vecWith vecConfig 0x100#32 w regs a bytes

/-- The start state of the vectors. -/
def vec (w : Word) (regs : List (Reg × Word)) : State := vecMem w regs 0 []

/-- What a vector's row lists of the state after one step. -/
structure Seen where
  ret : Bool
  st : Nat
  ic : Nat
  pc : Word
  reg : Word
  events : List Event
deriving DecidableEq, Repr

/-- One step, seen at one register. -/
def seen (s : State) (r : Reg) : Seen where
  ret := running (afterStep s)
  st := statusCode (afterStep s).status
  ic := (afterStep s).icount
  pc := (afterStep s).pc
  reg := readReg (afterStep s) r
  events := (afterStep s).events

/-- The bytes of memory after one step. -/
def bytesAfter (s : State) (a n : Nat) : List Byte := (List.range n).map fun k => memGet (afterStep s).mem (a + k)

/-! ### Well-formedness: each check refuses an ill-formed term -/

theorem test_odd_branch_offset_refused :
    (Instr.beq 1 2 0x001).wellFormed = false ∧ (Instr.bne 1 2 0x003).wellFormed = false ∧
      (Instr.blt 1 2 0x1FFF).wellFormed = false ∧ (Instr.bge 1 2 0x005).wellFormed = false ∧
      (Instr.bltu 1 2 0x007).wellFormed = false ∧ (Instr.bgeu 1 2 0x009).wellFormed = false := by decide
theorem test_odd_jal_offset_refused : (Instr.jal 1 0x000001).wellFormed = false := by decide
theorem test_even_offsets_accepted :
    (Instr.bgeu 1 2 0x1000).wellFormed = true ∧ (Instr.jal 1 0x100000).wellFormed = true := by decide

/-! ### Every constructor's decoding, and the words the decoder refuses -/

theorem test_decode_op_imm :
    decode false 0xFFF30293#32 = .instr (.addi 5 6 0xFFF) ∧
      decode false 0xFFF32293#32 = .instr (.slti 5 6 0xFFF) ∧
      decode false 0x00133293#32 = .instr (.sltiu 5 6 0x001) ∧
      decode false 0xFFF34293#32 = .instr (.xori 5 6 0xFFF) ∧
      decode false 0x0F036293#32 = .instr (.ori 5 6 0x0F0) ∧
      decode false 0x0FF37293#32 = .instr (.andi 5 6 0x0FF) ∧
      decode false 0x01F31293#32 = .instr (.slli 5 6 31) ∧
      decode false 0x00435293#32 = .instr (.srli 5 6 4) ∧
      decode false 0x41F35293#32 = .instr (.srai 5 6 31) := by decide
theorem test_decode_op :
    decode false 0x007302B3#32 = .instr (.add 5 6 7) ∧
      decode false 0x407302B3#32 = .instr (.sub 5 6 7) ∧
      decode false 0x007312B3#32 = .instr (.sll 5 6 7) ∧
      decode false 0x007322B3#32 = .instr (.slt 5 6 7) ∧
      decode false 0x007332B3#32 = .instr (.sltu 5 6 7) ∧
      decode false 0x007342B3#32 = .instr (.xor 5 6 7) ∧
      decode false 0x007352B3#32 = .instr (.srl 5 6 7) ∧
      decode false 0x407352B3#32 = .instr (.sra 5 6 7) ∧
      decode false 0x007362B3#32 = .instr (.or 5 6 7) ∧
      decode false 0x007372B3#32 = .instr (.and 5 6 7) := by decide
theorem test_decode_load :
    decode false 0x00430283#32 = .instr (.lb 5 6 4) ∧
      decode false 0x00131283#32 = .instr (.lh 5 6 1) ∧
      decode false 0xFFC32283#32 = .instr (.lw 5 6 0xFFC) ∧
      decode false 0x00034283#32 = .instr (.lbu 5 6 0) ∧
      decode false 0x00035283#32 = .instr (.lhu 5 6 0) := by decide
theorem test_decode_store :
    decode false 0x00730023#32 = .instr (.sb 7 6 0) ∧
      decode false 0x00731023#32 = .instr (.sh 7 6 0) ∧
      decode false 0xFE732E23#32 = .instr (.sw 7 6 0xFFC) ∧
      decode false 0x007320A3#32 = .instr (.sw 7 6 0x001) := by decide
theorem test_decode_branch :
    decode false 0xFE000CE3#32 = .instr (.beq 0 0 0x1FF8) ∧
      decode false 0x7E031FE3#32 = .instr (.bne 6 0 0x0FFE) ∧
      decode false 0x00734463#32 = .instr (.blt 6 7 8) ∧
      decode false 0x00735463#32 = .instr (.bge 6 7 8) ∧
      decode false 0x00736463#32 = .instr (.bltu 6 7 8) ∧
      decode false 0x00737463#32 = .instr (.bgeu 6 7 8) ∧
      decode false 0x80000063#32 = .instr (.beq 0 0 0x1000) := by decide
theorem test_decode_upper :
    decode false 0x123452B7#32 = .instr (.lui 5 0x12345) ∧
      decode false 0xFFFFF297#32 = .instr (.auipc 5 0xFFFFF) := by decide
theorem test_decode_jump :
    decode false 0x010000EF#32 = .instr (.jal 1 16) ∧
      decode false 0xF01FF0EF#32 = .instr (.jal 1 0x1FFF00) ∧
      decode false 0xFFF300E7#32 = .instr (.jalr 1 6 0xFFF) := by decide
theorem test_decode_system :
    decode false 0x00000073#32 = .instr (.ecall) ∧
      decode false 0x00100073#32 = .instr (.ecall) := by decide
/-- V-OP-N1, V-SHI-1, V-SHI-3, V-EBREAK-1: bits that a lax decoder ignores. -/
theorem test_decode_ignored_bits :
    decode false 0x022080B3#32 = .instr (.add 1 1 2) ∧ decode false 0x02431293#32 = .instr (.slli 5 6 4) ∧
      decode false 0x02435293#32 = .instr (.srli 5 6 4) ∧ decode false 0x00100073#32 = .instr .ecall := by decide
/-- V-OP-N2, V-SHI-2, V-EBREAK-2: the same words under STRICT_DECODE. -/
theorem test_decode_strict :
    decode true 0x022080B3#32 = .fault .badFunct7 ∧ decode true 0x02431293#32 = .fault .badFunct7 ∧
      decode true 0x00100073#32 = .fault .badFunct7 ∧ decode true 0x00000073#32 = .instr .ecall ∧
      decode true 0x407302B3#32 = .instr (.sub 5 6 7) := by decide
/-- V-LOAD-X, V-STORE-X, V-BR-X, V-JALR-X, V-FENCE-1, V-F-6. -/
theorem test_decode_refused :
    decode false 0x00033283#32 = .fault .badFunct3 ∧ decode false 0x00733023#32 = .fault .badFunct3 ∧
      decode false 0x00732463#32 = .fault .badFunct3 ∧ decode false 0x004310E7#32 = .fault .badFunct3 ∧
      decode false 0x0FF0000F#32 = .fault .unknownOpcode ∧ decode false 0#32 = .zero := by decide
/-- opcode_table.json, the words whose operands are all 0. -/
theorem test_decode_table_word :
    decodeTableWord 32 0x00000013 = some (.addi 0 0 0) ∧ decodeTableWord 32 0x40000033 = some (.sub 0 0 0) ∧
      decodeTableWord 32 0 = none := by decide

/-! ### One step each, from the vectors -/

/-- V-ADDI-2. -/
theorem test_addi_wraps :
    seen (vec 0x00130293#32 [(6#5, 0x7FFFFFFF#32)]) 5#5 = ⟨true, 0, 1, 0x104#32, 0x80000000#32, []⟩ := by decide
/-- V-ADDI-5. -/
theorem test_addi_to_x0 :
    seen (vec 0x00530013#32 [(6#5, 0x7#32)]) 0#5 = ⟨true, 0, 1, 0x104#32, 0x0#32, []⟩ := by decide
/-- V-SLTI-1. -/
theorem test_slti :
    seen (vec 0xFFF32293#32 [(6#5, 0xFFFFFFFE#32)]) 5#5 = ⟨true, 0, 1, 0x104#32, 0x1#32, []⟩ := by decide
/-- V-SLTIU-1. -/
theorem test_sltiu :
    seen (vec 0xFFF33293#32 [(6#5, 0xFFFFFFFE#32)]) 5#5 = ⟨true, 0, 1, 0x104#32, 0x1#32, []⟩ := by decide
/-- V-XORI-1. -/
theorem test_xori :
    seen (vec 0xFFF34293#32 [(6#5, 0x0F0F0F0F#32)]) 5#5 = ⟨true, 0, 1, 0x104#32, 0xF0F0F0F0#32, []⟩ := by decide
/-- V-ORI-2. -/
theorem test_ori :
    seen (vec 0x80036293#32 [(6#5, 0x1#32)]) 5#5 = ⟨true, 0, 1, 0x104#32, 0xFFFFF801#32, []⟩ := by decide
/-- V-ANDI-2. -/
theorem test_andi :
    seen (vec 0xFF037293#32 [(6#5, 0x12345678#32)]) 5#5 = ⟨true, 0, 1, 0x104#32, 0x12345670#32, []⟩ := by decide
/-- V-SLLI-1. -/
theorem test_slli :
    seen (vec 0x00431293#32 [(6#5, 0x80000001#32)]) 5#5 = ⟨true, 0, 1, 0x104#32, 0x10#32, []⟩ := by decide
/-- V-SRLI-1. -/
theorem test_srli :
    seen (vec 0x00435293#32 [(6#5, 0x80000000#32)]) 5#5 = ⟨true, 0, 1, 0x104#32, 0x08000000#32, []⟩ := by decide
/-- V-SRAI-1. -/
theorem test_srai :
    seen (vec 0x40435293#32 [(6#5, 0x80000000#32)]) 5#5 = ⟨true, 0, 1, 0x104#32, 0xF8000000#32, []⟩ := by decide
/-- V-ADD-2. -/
theorem test_add_same_register :
    seen (vec 0x00630333#32 [(6#5, 0x3#32)]) 6#5 = ⟨true, 0, 1, 0x104#32, 0x6#32, []⟩ := by decide
/-- V-SUB-2. -/
theorem test_sub :
    seen (vec 0x407302B3#32 [(6#5, 0x80000000#32), (7#5, 0x1#32)]) 5#5 = ⟨true, 0, 1, 0x104#32, 0x7FFFFFFF#32, []⟩ := by decide
/-- V-SLL-1. -/
theorem test_sll :
    seen (vec 0x007312B3#32 [(6#5, 0x1#32), (7#5, 0x21#32)]) 5#5 = ⟨true, 0, 1, 0x104#32, 0x2#32, []⟩ := by decide
/-- V-SLT-1. -/
theorem test_slt :
    seen (vec 0x007322B3#32 [(6#5, 0xFFFFFFFF#32), (7#5, 0x1#32)]) 5#5 = ⟨true, 0, 1, 0x104#32, 0x1#32, []⟩ := by decide
/-- V-SLTU-1. -/
theorem test_sltu :
    seen (vec 0x007332B3#32 [(6#5, 0xFFFFFFFF#32), (7#5, 0x1#32)]) 5#5 = ⟨true, 0, 1, 0x104#32, 0x0#32, []⟩ := by decide
/-- V-XOR-1. -/
theorem test_xor :
    seen (vec 0x007342B3#32 [(6#5, 0xFF00FF00#32), (7#5, 0x0FF00FF0#32)]) 5#5 = ⟨true, 0, 1, 0x104#32, 0xF0F0F0F0#32, []⟩ := by decide
/-- V-SRL-1. -/
theorem test_srl :
    seen (vec 0x007352B3#32 [(6#5, 0x80000000#32), (7#5, 0x3F#32)]) 5#5 = ⟨true, 0, 1, 0x104#32, 0x1#32, []⟩ := by decide
/-- V-SRA-2. -/
theorem test_sra :
    seen (vec 0x407352B3#32 [(6#5, 0x80000000#32), (7#5, 0x4#32)]) 5#5 = ⟨true, 0, 1, 0x104#32, 0xF8000000#32, []⟩ := by decide
/-- V-OR-1. -/
theorem test_or :
    seen (vec 0x007362B3#32 [(6#5, 0xF0F00000#32), (7#5, 0xF0F0#32)]) 5#5 = ⟨true, 0, 1, 0x104#32, 0xF0F0F0F0#32, []⟩ := by decide
/-- V-AND-1. -/
theorem test_and :
    seen (vec 0x007372B3#32 [(6#5, 0xFF00FF00#32), (7#5, 0x0FF00FF0#32)]) 5#5 = ⟨true, 0, 1, 0x104#32, 0x0F000F00#32, []⟩ := by decide
/-- V-LB-1. -/
theorem test_lb :
    seen (vecMem 0x00030283#32 [(6#5, 0x200#32)] 0x200 [0x80#8, 0xFF#8, 0x34#8, 0x12#8, 0x7F#8]) 5#5 =
      ⟨true, 0, 1, 0x104#32, 0xFFFFFF80#32, []⟩ := by decide
/-- V-LB-F1. -/
theorem test_lb_address_wraps :
    seen (vec 0xFFF00283#32 [(5#5, 0x55#32)]) 5#5 = ⟨false, 4, 1, 0x100#32, 0x55#32, [.memFault 0x100#32 0xFFFFFFFF#32 .byte .load]⟩ := by decide
/-- V-LH-2. -/
theorem test_lh_misaligned :
    seen (vecMem 0x00131283#32 [(6#5, 0x200#32)] 0x200 [0x80#8, 0xFF#8, 0x34#8, 0x12#8, 0x7F#8]) 5#5 =
      ⟨true, 0, 1, 0x104#32, 0x34FF#32, []⟩ := by decide
/-- V-LW-2. -/
theorem test_lw_misaligned :
    seen (vecMem 0x00132283#32 [(6#5, 0x200#32)] 0x200 [0x80#8, 0xFF#8, 0x34#8, 0x12#8, 0x7F#8]) 5#5 =
      ⟨true, 0, 1, 0x104#32, 0x7F1234FF#32, []⟩ := by decide
/-- V-LW-F1. -/
theorem test_lw_straddling_the_top :
    seen (vec 0x00032283#32 [(6#5, 0xFFD#32), (5#5, 0x55#32)]) 5#5 = ⟨false, 4, 1, 0x100#32, 0x55#32, [.memFault 0x100#32 0xFFD#32 .word .load]⟩ := by decide
/-- V-LBU-1. -/
theorem test_lbu :
    seen (vecMem 0x00034283#32 [(6#5, 0x200#32)] 0x200 [0x80#8, 0xFF#8, 0x34#8, 0x12#8, 0x7F#8]) 5#5 =
      ⟨true, 0, 1, 0x104#32, 0x80#32, []⟩ := by decide
/-- V-LHU-1. -/
theorem test_lhu :
    seen (vecMem 0x00035283#32 [(6#5, 0x200#32)] 0x200 [0x80#8, 0xFF#8, 0x34#8, 0x12#8, 0x7F#8]) 5#5 =
      ⟨true, 0, 1, 0x104#32, 0xFF80#32, []⟩ := by decide
/-- V-SB-1. -/
theorem test_sb :
    bytesAfter (vec 0x00730023#32 [(6#5, 0x300#32), (7#5, 0x12345678#32)]) 0x300 4 = [0x78#8, 0x00#8, 0x00#8, 0x00#8] := by decide
/-- V-SH-2. -/
theorem test_sh :
    bytesAfter (vec 0x00731023#32 [(6#5, 0xFFE#32), (7#5, 0xAABBCCDD#32)]) 0xFFE 2 = [0xDD#8, 0xCC#8] := by decide
/-- V-SW-5. -/
theorem test_sw_misaligned :
    bytesAfter (vec 0x007320A3#32 [(6#5, 0x300#32), (7#5, 0xAABBCCDD#32)]) 0x300 6 = [0x00#8, 0xDD#8, 0xCC#8, 0xBB#8, 0xAA#8, 0x00#8] := by decide
/-- V-SW-F1. -/
theorem test_sw_straddling_the_top :
    seen (vec 0x00732023#32 [(6#5, 0xFFE#32), (7#5, 0xAABBCCDD#32)]) 7#5 = ⟨false, 4, 1, 0x100#32, 0xAABBCCDD#32, [.memFault 0x100#32 0xFFE#32 .word .store]⟩ := by decide
/-- V-BEQ-2. -/
theorem test_beq_not_taken :
    seen (vec 0x00730463#32 [(6#5, 0x5#32), (7#5, 0x6#32)]) 6#5 = ⟨true, 0, 1, 0x104#32, 0x5#32, []⟩ := by decide
/-- V-BR-B1. -/
theorem test_beq_backward :
    seen (vec 0xFE000CE3#32 []) 6#5 = ⟨true, 0, 1, 0xF8#32, 0x0#32, []⟩ := by decide
/-- V-BR-B3. -/
theorem test_bne_forward :
    seen (vec 0x7E031FE3#32 [(6#5, 0x1#32)]) 6#5 = ⟨true, 0, 1, 0x10FE#32, 0x1#32, []⟩ := by decide
/-- V-BNE-2. -/
theorem test_bne_not_taken :
    seen (vec 0x00731463#32 [(6#5, 0x5#32), (7#5, 0x5#32)]) 6#5 = ⟨true, 0, 1, 0x104#32, 0x5#32, []⟩ := by decide
/-- V-BLT-1. -/
theorem test_blt :
    seen (vec 0x00734463#32 [(6#5, 0xFFFFFFFF#32), (7#5, 0x1#32)]) 6#5 = ⟨true, 0, 1, 0x108#32, 0xFFFFFFFF#32, []⟩ := by decide
/-- V-BGE-1. -/
theorem test_bge_equal :
    seen (vec 0x00735463#32 [(6#5, 0x1#32), (7#5, 0x1#32)]) 6#5 = ⟨true, 0, 1, 0x108#32, 0x1#32, []⟩ := by decide
/-- V-BGE-2. -/
theorem test_bge_not_taken :
    seen (vec 0x00735463#32 [(6#5, 0xFFFFFFFF#32), (7#5, 0x1#32)]) 7#5 = ⟨true, 0, 1, 0x104#32, 0x1#32, []⟩ := by decide
/-- V-BLTU-2. -/
theorem test_bltu :
    seen (vec 0x00736463#32 [(6#5, 0xFFFFFFFF#32), (7#5, 0x1#32)]) 7#5 = ⟨true, 0, 1, 0x104#32, 0x1#32, []⟩ := by decide
/-- V-BGEU-1. -/
theorem test_bgeu :
    seen (vec 0x00737463#32 [(6#5, 0xFFFFFFFF#32), (7#5, 0x1#32)]) 7#5 = ⟨true, 0, 1, 0x108#32, 0x1#32, []⟩ := by decide
/-- V-LUI-2. -/
theorem test_lui :
    seen (vec 0xFFFFF2B7#32 []) 5#5 = ⟨true, 0, 1, 0x104#32, 0xFFFFF000#32, []⟩ := by decide
/-- V-AUIPC-2. -/
theorem test_auipc :
    seen (vec 0xFFFFF297#32 []) 5#5 = ⟨true, 0, 1, 0x104#32, 0xFFFFF100#32, []⟩ := by decide
/-- V-JAL-3. -/
theorem test_jal_backward :
    seen (vec 0xF01FF0EF#32 []) 1#5 = ⟨true, 0, 1, 0x0#32, 0x104#32, []⟩ := by decide
/-- V-JALR-3. -/
theorem test_jalr_bit_0_cleared :
    seen (vec 0xFFF300E7#32 [(6#5, 0x200#32)]) 1#5 = ⟨true, 0, 1, 0x1FE#32, 0x104#32, []⟩ := by decide
/-- V-JALR-5 and V-JALR-6. -/
theorem test_jalr_link_order :
    seen (vec 0x000080E7#32 [(1#5, 0x180#32)]) 1#5 = ⟨true, 0, 1, 0x180#32, 0x104#32, []⟩ ∧
      seen (vecWith { vecConfig with jalrLinkFirst := true } 0x100#32 0x000080E7#32 [(1#5, 0x180#32)] 0 []) 1#5 =
        ⟨true, 0, 1, 0x104#32, 0x104#32, []⟩ := by decide
/-- V-ECALL-1, V-ECALL-4, V-ECALL-5. -/
theorem test_ecall_prints :
    (seen (vec 0x00000073#32 [(17#5, 1#32), (10#5, 0xFFFFFFFF#32)]) 10#5).events = [.printInt (-1)] ∧
      (seen (vecMem 0x00000073#32 [(17#5, 4#32), (10#5, 0xFFE#32)] 0xFFE [0x41#8, 0x42#8]) 10#5).events =
        [.printStr [0x41#8, 0x42#8]] ∧
      (seen (vec 0x00000073#32 [(17#5, 4#32), (10#5, 0x1000#32)]) 10#5).events = [.printStr []] := by decide
/-- V-ECALL-6, V-ECALL-8. -/
theorem test_ecall_exit_and_unknown :
    seen (vec 0x00000073#32 [(17#5, 10#32)]) 17#5 = ⟨false, 2, 1, 0x104#32, 10#32, []⟩ ∧
      seen (vec 0x00000073#32 [(17#5, 0x101#32)]) 17#5 = ⟨true, 0, 1, 0x104#32, 0x101#32, [.unknownSyscall 0x101#32]⟩ := by
  decide
/-- V-LOAD-X and V-LOAD-XS. -/
theorem test_decode_fault_policies :
    seen (vec 0x00033283#32 []) 5#5 = ⟨false, 3, 1, 0x100#32, 0#32, [.decodeFault 0x100#32 0x00033283#32 .badFunct3]⟩ ∧
      seen (vecWith { vecConfig with decodeFaultPolicy := .skip } 0x100#32 0x00033283#32 [] 0 []) 5#5 =
        ⟨true, 0, 1, 0x104#32, 0#32, [.decodeFault 0x100#32 0x00033283#32 .badFunct3]⟩ := by decide
/-- V-F-1, V-F-2, V-F-3. -/
theorem test_fetch_bounds :
    seen (vecWith vecConfig 0xFFC#32 0x00100293#32 [] 0 []) 5#5 = ⟨true, 0, 1, 0x1000#32, 1#32, []⟩ ∧
      seen (vecWith vecConfig 0xFFD#32 0x00100293#32 [] 0 []) 5#5 =
        ⟨false, 1, 0, 0xFFD#32, 0#32, [.fetchOutOfBounds 0xFFD#32]⟩ ∧
      seen (vecWith vecConfig 0xFFFFFFFC#32 0#32 [] 0 []) 5#5 =
        ⟨false, 1, 0, 0xFFFFFFFC#32, 0#32, [.fetchOutOfBounds 0xFFFFFFFC#32]⟩ := by decide
/-- V-F-4 and V-F-5. -/
theorem test_misaligned_pc :
    seen (vecWith vecConfig 0x102#32 0x00100293#32 [] 0 []) 5#5 = ⟨true, 0, 1, 0x106#32, 1#32, []⟩ ∧
      seen (vecWith { vecConfig with misalignedPcPolicy := .fault } 0x102#32 0x00100293#32 [] 0 []) 5#5 =
        ⟨false, 5, 0, 0x102#32, 0#32, [.pcMisaligned 0x102#32]⟩ := by decide
/-- V-RST-1: after RESET with the default parameters, and the step that follows. -/
theorem test_reset :
    readReg State.reset 2#5 = 0x00400000#32 ∧ readReg State.reset 3#5 = 0#32 ∧ State.reset.pc = 0#32 ∧
      seen State.reset 2#5 = ⟨false, 1, 0, 0#32, 0x00400000#32, []⟩ := by decide
/-- The first instruction after reset, placed where the step fetches: lui x5, 0x12345. -/
theorem test_with_fetch_word :
    seen (State.reset.withFetchWord 32 0x123452B7) 5#5 = ⟨true, 0, 1, 4#32, 0x12345000#32, []⟩ := by decide
/-- LOAD_RAW (70_reset_and_hazards.md R205): a word that does not fit is dropped. -/
theorem test_load_raw :
    let t := (transact (State.resetWith { vecConfig with memCapacity := 6 }) (.loadRaw [0x04030201#32, 0x08070605#32])).2
    (List.range 6).map (memGet t.mem) = [1#8, 2#8, 3#8, 4#8, 0#8, 0#8] ∧ t.status = .running := by decide

/-! ### Witnesses: the hypotheses of each obligation can be met -/

/-- The meaning's next state, for a witness that needs a name for it. -/
def afterExec (i : Instr) (s : State) : State :=
  match exec i s with
  | .next t => t
  | .fault _ => s
  | .refused _ => s

/-- lw x5, 0(x6) with x6 at the top word, sw and the rest as the names say. -/
def wLoad : State := vec 0x00032283#32 [(6#5, 0xFFC#32), (7#5, 0x12345678#32)]
/-- sw x7, 0(x6). -/
def wStore : State := vec 0x00732023#32 [(6#5, 0xFFC#32), (7#5, 0x12345678#32)]
/-- addi x5, x6, 1. -/
def wAddi : State := vec 0x00130293#32 [(6#5, 0x7FFFFFFF#32)]
/-- A load out of bounds, lw x5, 0(x6). -/
def wLoadOut : State := vec 0x00032283#32 [(6#5, 0xFFD#32)]
/-- A store out of bounds, sw x7, 0(x6). -/
def wStoreOut : State := vec 0x00732023#32 [(6#5, 0xFFD#32), (7#5, 1#32)]
/-- A FENCE word, which is an unknown opcode. -/
def wUnknown : State := vec 0x0FF0000F#32 []
/-- The same under DECODE_FAULT_POLICY = SKIP. -/
def wUnknownSkip : State := vecWith { vecConfig with decodeFaultPolicy := .skip } 0x100#32 0x0FF0000F#32 [] 0 []
/-- ecall with the given service. -/
def wEcall (n : Word) : State := vec 0x00000073#32 [(17#5, n), (10#5, 0x200#32)]
/-- A zero word at pc. -/
def wZero : State := vec 0#32 []
/-- The first pc whose fetch is out of bounds. -/
def wOob : State := vecWith vecConfig 0xFFD#32 0#32 [] 0 []
/-- A misaligned pc under MISALIGNED_PC_POLICY = FAULT. -/
def wMisaligned : State := vecWith { vecConfig with misalignedPcPolicy := .fault } 0x102#32 0x00100293#32 [] 0 []

theorem test_witness_RegisterWritesAreSeenByReadsExceptX0 : (1#5 : Reg) ≠ 0#5 ∧ (31#5 : Reg) ≠ 0#5 := by decide
theorem test_witness_HostReadRegIsZeroOutOfRange :
    ((-1 : Int) < 0 ∨ (31 : Int) < -1) ∧ ((32 : Int) < 0 ∨ (31 : Int) < 32) := by decide
theorem test_witness_MemWriteChangesItsBytesOnly :
    4 ≤ 4 ∧ 0 < 4 ∧ 3 < 4 ∧ (0xFF < 0x100 ∨ 0x100 + 4 ≤ 0xFF) ∧ (0x104 < 0x100 ∨ 0x100 + 4 ≤ 0x104) := by decide
/-- The word at the top of memory. -/
theorem test_witness_StoreThenLoadRoundTrip_word :
    (5#5 : Reg) ≠ 0#5 ∧ (0xFFC#32 : Word) = readReg wStore 6#5 + (0#12).signExtend 32 ∧
      0xFFC#32 = readReg (afterExec (.sw 7 6 0) wStore) 6#5 + (0#12).signExtend 32 ∧
      0x12345678#32 = readReg wStore 7#5 ∧ (afterExec (.sw 7 6 0) wStore).cfg = wStore.cfg ∧
      (0xFFC#32).toNat + 4 ≤ wStore.cfg.memCapacity ∧
      exec (.sw 7 6 0) wStore = .next (afterExec (.sw 7 6 0) wStore) :=
  ⟨by decide, by decide, by decide, by decide, by decide, by decide, rfl⟩
/-- The halfword and the byte at the top of memory. -/
theorem test_witness_StoreThenLoadRoundTrip_narrow :
    let s := vec 0x00731123#32 [(6#5, 0xFFC#32), (7#5, 0x12345678#32)]
    0xFFE#32 = readReg s 6#5 + (2#12).signExtend 32 ∧ (0xFFE#32).toNat + 2 ≤ s.cfg.memCapacity ∧
      exec (.sh 7 6 2) s = .next (afterExec (.sh 7 6 2) s) ∧ (afterExec (.sh 7 6 2) s).cfg = s.cfg ∧
      0xFFF#32 = readReg s 6#5 + (3#12).signExtend 32 ∧ (0xFFF#32).toNat + 1 ≤ s.cfg.memCapacity ∧
      exec (.sb 7 6 3) s = .next (afterExec (.sb 7 6 3) s) ∧ (afterExec (.sb 7 6 3) s).cfg = s.cfg :=
  ⟨by decide, by decide, rfl, by decide, by decide, by decide, rfl, by decide⟩
theorem test_witness_ImmediatesAreTheNumbersOfTheirBits :
    ∀ lo n, (fun lo n => ((BitVec.extractLsb' lo n (0xFFF30293#32 : Word)).toNat : Int)) lo n =
      (((0xFFF30293#32 : Word).extractLsb' lo n).toNat : Int) := fun _ _ => rfl
theorem test_witness_DecodeOfEncodeIsTheInstruction :
    (Instr.bgeu 31 31 0x1FFE).wellFormed = true ∧ (Instr.jal 31 0x1FFFFE).wellFormed = true ∧
      (Instr.addi 31 31 0xFFF).wellFormed = true ∧ Instr.ecall.wellFormed = true := by decide
theorem test_witness_StrictDecodeReadsOnlyEncodings :
    decode true 0x407352B3#32 = .instr (.sra 5 6 7) ∧ decode true 0x00000073#32 = .instr .ecall := by decide
theorem test_witness_BadFunct3IsAnUnassignedFunct3 :
    0x03 = (BitVec.extractLsb' 0 7 (0x00033283#32 : Word)).toNat ∧ 3 = (BitVec.extractLsb' 12 3 (0x00033283#32 : Word)).toNat ∧
      0x67 = (BitVec.extractLsb' 0 7 (0x0043F0E7#32 : Word)).toNat ∧ 7 = (BitVec.extractLsb' 12 3 (0x0043F0E7#32 : Word)).toNat := by
  decide
/-- Words that differ in unexamined bits only: an OP pair, a shift pair of each kind, a SYSTEM pair. -/
theorem test_witness_UnexaminedBits_lax :
    (opcodeOf 0x022080B3#32 = 0x33#7 ∧ opcodeOf 0x002080B3#32 = 0x33#7 ∧ funct3Of 0x022080B3#32 = funct3Of 0x002080B3#32 ∧
      rdOf 0x022080B3#32 = rdOf 0x002080B3#32 ∧ rs1Of 0x022080B3#32 = rs1Of 0x002080B3#32 ∧
      rs2Of 0x022080B3#32 = rs2Of 0x002080B3#32 ∧
      (0x022080B3#32 : Word).getLsbD 30 = (0x002080B3#32 : Word).getLsbD 30) ∧
    (opcodeOf 0xFE431293#32 = 0x13#7 ∧ opcodeOf 0x00431293#32 = 0x13#7 ∧ funct3Of 0xFE431293#32 = 1#3 ∧
      funct3Of 0xFE431293#32 = funct3Of 0x00431293#32 ∧ rdOf 0xFE431293#32 = rdOf 0x00431293#32 ∧
      rs1Of 0xFE431293#32 = rs1Of 0x00431293#32 ∧ shamtOf 0xFE431293#32 = shamtOf 0x00431293#32) ∧
    (opcodeOf 0xC0435293#32 = 0x13#7 ∧ opcodeOf 0x40435293#32 = 0x13#7 ∧ funct3Of 0xC0435293#32 = 5#3 ∧
      funct3Of 0xC0435293#32 = funct3Of 0x40435293#32 ∧ rdOf 0xC0435293#32 = rdOf 0x40435293#32 ∧
      rs1Of 0xC0435293#32 = rs1Of 0x40435293#32 ∧ shamtOf 0xC0435293#32 = shamtOf 0x40435293#32 ∧
      (0xC0435293#32 : Word).getLsbD 30 = (0x40435293#32 : Word).getLsbD 30) ∧
    opcodeOf 0x00001073#32 = 0x73#7 ∧ opcodeOf 0xFFFFFFF3#32 = 0x73#7 := by decide
/-- A word of each strict case: its three fields and the fault. -/
theorem test_witness_UnexaminedBits_strict :
    (0x33 = (BitVec.extractLsb' 0 7 (0x022080B3#32 : Word)).toNat ∧ 0 = (BitVec.extractLsb' 12 3 (0x022080B3#32 : Word)).toNat ∧
      1 = (BitVec.extractLsb' 25 7 (0x022080B3#32 : Word)).toNat ∧ decode true 0x022080B3#32 = .fault .badFunct7) ∧
    (decode true 0x02431293#32 = .fault .badFunct7 ∧ decode true 0x02435293#32 = .fault .badFunct7 ∧
      decode true 0x42435293#32 = .fault .badFunct7 ∧ decode true 0x00100073#32 = .fault .badFunct7) := by decide
/-- A word of each OP-IMM rule. -/
theorem test_witness_RegisterImmediateResults :
    opcodeOf 0xFFF30293#32 = 0x13#7 ∧ funct3Of 0xFFF30293#32 = 0#3 ∧ opcodeOf 0xFFF32293#32 = 0x13#7 ∧
      funct3Of 0xFFF32293#32 = 2#3 ∧ opcodeOf 0xFFF34293#32 = 0x13#7 ∧ funct3Of 0xFFF34293#32 = 4#3 ∧
      opcodeOf 0x0F036293#32 = 0x13#7 ∧ funct3Of 0x0F036293#32 = 6#3 ∧ opcodeOf 0x0FF37293#32 = 0x13#7 ∧
      funct3Of 0x0FF37293#32 = 7#3 := by decide
theorem test_witness_SltiuSignExtendsThenComparesUnsigned :
    opcodeOf 0xFFF33293#32 = 0x13#7 ∧ funct3Of 0xFFF33293#32 = 3#3 := by decide
theorem test_witness_ImmediateShiftResults :
    (opcodeOf 0x01F31293#32 = 0x13#7 ∧ funct3Of 0x01F31293#32 = 1#3 ∧ BitVec.extractLsb' 25 7 (0x01F31293#32 : Word) = 0x00#7) ∧
    (opcodeOf 0x00435293#32 = 0x13#7 ∧ funct3Of 0x00435293#32 = 5#3 ∧ (0x00435293#32 : Word).getLsbD 30 = false ∧
      BitVec.extractLsb' 25 7 (0x00435293#32 : Word) = 0x00#7) ∧
    opcodeOf 0x41F35293#32 = 0x13#7 ∧ funct3Of 0x41F35293#32 = 5#3 ∧ (0x41F35293#32 : Word).getLsbD 30 = true ∧
      BitVec.extractLsb' 25 7 (0x41F35293#32 : Word) = 0x20#7 := by decide
theorem test_witness_RegisterArithmeticResults :
    (opcodeOf 0x007302B3#32 = 0x33#7 ∧ funct3Of 0x007302B3#32 = 0#3 ∧ (0x007302B3#32 : Word).getLsbD 30 = false ∧
      BitVec.extractLsb' 25 7 (0x007302B3#32 : Word) = 0x00#7) ∧
    (opcodeOf 0x407302B3#32 = 0x33#7 ∧ funct3Of 0x407302B3#32 = 0#3 ∧ (0x407302B3#32 : Word).getLsbD 30 = true ∧
      BitVec.extractLsb' 25 7 (0x407302B3#32 : Word) = 0x20#7) ∧
    (opcodeOf 0x007322B3#32 = 0x33#7 ∧ funct3Of 0x007322B3#32 = 2#3 ∧ BitVec.extractLsb' 25 7 (0x007322B3#32 : Word) = 0x00#7) ∧
    opcodeOf 0x007332B3#32 = 0x33#7 ∧ funct3Of 0x007332B3#32 = 3#3 ∧ BitVec.extractLsb' 25 7 (0x007332B3#32 : Word) = 0x00#7 := by
  decide
theorem test_witness_RegisterLogicResults :
    (opcodeOf 0x007342B3#32 = 0x33#7 ∧ funct3Of 0x007342B3#32 = 4#3 ∧ BitVec.extractLsb' 25 7 (0x007342B3#32 : Word) = 0x00#7) ∧
    (opcodeOf 0x007362B3#32 = 0x33#7 ∧ funct3Of 0x007362B3#32 = 6#3 ∧ BitVec.extractLsb' 25 7 (0x007362B3#32 : Word) = 0x00#7) ∧
    opcodeOf 0x007372B3#32 = 0x33#7 ∧ funct3Of 0x007372B3#32 = 7#3 ∧ BitVec.extractLsb' 25 7 (0x007372B3#32 : Word) = 0x00#7 := by
  decide
theorem test_witness_RegisterShiftResults :
    (opcodeOf 0x007312B3#32 = 0x33#7 ∧ funct3Of 0x007312B3#32 = 1#3 ∧ BitVec.extractLsb' 25 7 (0x007312B3#32 : Word) = 0x00#7) ∧
    (opcodeOf 0x007352B3#32 = 0x33#7 ∧ funct3Of 0x007352B3#32 = 5#3 ∧ (0x007352B3#32 : Word).getLsbD 30 = false ∧
      BitVec.extractLsb' 25 7 (0x007352B3#32 : Word) = 0x00#7) ∧
    opcodeOf 0x407352B3#32 = 0x33#7 ∧ funct3Of 0x407352B3#32 = 5#3 ∧ (0x407352B3#32 : Word).getLsbD 30 = true ∧
      BitVec.extractLsb' 25 7 (0x407352B3#32 : Word) = 0x20#7 := by decide
/-- A word of each load, and the last address in bounds and the first out of bounds for each width. -/
theorem test_witness_LoadResults :
    (opcodeOf 0x00030283#32 = 0x03#7 ∧ funct3Of 0x00030283#32 = 0#3 ∧ funct3Of 0x00031283#32 = 1#3 ∧
      funct3Of 0x00032283#32 = 2#3 ∧ funct3Of 0x00034283#32 = 4#3 ∧ funct3Of 0x00035283#32 = 5#3) ∧
    (0xFFF#32 = readReg wLoad 6#5 + (3#12).signExtend 32 ∧ (0xFFF#32).toNat + 1 ≤ wLoad.cfg.memCapacity ∧
      0xFFE#32 = readReg wLoad 6#5 + (2#12).signExtend 32 ∧ (0xFFE#32).toNat + 2 ≤ wLoad.cfg.memCapacity ∧
      0xFFC#32 = readReg wLoad 6#5 + (0#12).signExtend 32 ∧ (0xFFC#32).toNat + 4 ≤ wLoad.cfg.memCapacity) ∧
    0x1000#32 = readReg wLoad 6#5 + (4#12).signExtend 32 ∧ wLoad.cfg.memCapacity < (0x1000#32).toNat + 1 ∧
      0xFFF#32 = readReg wLoad 6#5 + (3#12).signExtend 32 ∧ wLoad.cfg.memCapacity < (0xFFF#32).toNat + 2 ∧
      0xFFD#32 = readReg wLoad 6#5 + (1#12).signExtend 32 ∧ wLoad.cfg.memCapacity < (0xFFD#32).toNat + 4 := by decide
/-- The same for the stores. -/
theorem test_witness_StoreResults :
    (opcodeOf 0x00730023#32 = 0x23#7 ∧ funct3Of 0x00730023#32 = 0#3 ∧ funct3Of 0x00731023#32 = 1#3 ∧
      funct3Of 0x00732023#32 = 2#3) ∧
    (0xFFF#32 = readReg wStore 6#5 + (3#12).signExtend 32 ∧ (0xFFF#32).toNat + 1 ≤ wStore.cfg.memCapacity ∧
      0xFFE#32 = readReg wStore 6#5 + (2#12).signExtend 32 ∧ (0xFFE#32).toNat + 2 ≤ wStore.cfg.memCapacity ∧
      0xFFC#32 = readReg wStore 6#5 + (0#12).signExtend 32 ∧ (0xFFC#32).toNat + 4 ≤ wStore.cfg.memCapacity) ∧
    0x1000#32 = readReg wStore 6#5 + (4#12).signExtend 32 ∧ wStore.cfg.memCapacity < (0x1000#32).toNat + 1 ∧
      0xFFF#32 = readReg wStore 6#5 + (3#12).signExtend 32 ∧ wStore.cfg.memCapacity < (0xFFF#32).toNat + 2 ∧
      0xFFD#32 = readReg wStore 6#5 + (1#12).signExtend 32 ∧ wStore.cfg.memCapacity < (0xFFD#32).toNat + 4 := by decide
/-- A word of each branch, and operands that take it and that do not, the equal ones among them. -/
theorem test_witness_BranchResults :
    (opcodeOf 0x00730463#32 = 0x63#7 ∧ funct3Of 0x00730463#32 = 0#3 ∧ funct3Of 0x00731463#32 = 1#3 ∧
      funct3Of 0x00734463#32 = 4#3 ∧ funct3Of 0x00735463#32 = 5#3 ∧ funct3Of 0x00736463#32 = 6#3 ∧
      funct3Of 0x00737463#32 = 7#3) ∧
    (let a : Word := 0x80000000#32; let b : Word := 0x7FFFFFFF#32
     a = a ∧ ¬ a = b ∧ a ≠ b ∧ ¬ a ≠ a ∧ a.toInt < b.toInt ∧ ¬ a.toInt < a.toInt ∧ a.toInt ≥ a.toInt ∧ ¬ a.toInt ≥ b.toInt ∧
      b.toNat < a.toNat ∧ ¬ b.toNat < b.toNat ∧ b.toNat ≥ b.toNat ∧ ¬ b.toNat ≥ a.toNat) := by decide
theorem test_witness_UpperImmediateResults : opcodeOf 0x123452B7#32 = 0x37#7 ∧ opcodeOf 0xFFFFF297#32 = 0x17#7 := by decide
/-- A constant whose bit 11 is set. -/
theorem test_witness_LuiThenAddiBuildsEveryConstant :
    (5#5 : Reg) ≠ 0#5 ∧ 0xFFF#12 = BitVec.extractLsb' 0 12 (0x12345FFF#32 : Word) ∧
      0x12346#20 = BitVec.extractLsb' 0 20 (((0x12345FFF#32 : Word) - (0xFFF#12).signExtend 32) >>> 12) := by decide
theorem test_witness_JumpsLinkAndGo :
    opcodeOf 0x010000EF#32 = 0x6F#7 ∧ (opcodeOf 0x004300E7#32 = 0x67#7 ∧ funct3Of 0x004300E7#32 = 0#3) ∧
      (opcodeOf 0x004310E7#32 = 0x67#7 ∧ funct3Of 0x004310E7#32 ≠ 0#3) ∧
      (wAddi.cfg.jalrLinkFirst = false ∧ (1#5 : Reg) ≠ 6#5) ∧
      ({ vecConfig with jalrLinkFirst := true } : Config).jalrLinkFirst = true ∧ (1#5 : Reg) ≠ 0#5 := by decide
theorem test_witness_SystemWordsAreEcall :
    opcodeOf 0x00000073#32 = 0x73#7 ∧ opcodeOf 0x00100073#32 = 0x73#7 ∧ (0x00100073#32 : Word) ≠ 0x00000073#32 := by decide
theorem test_witness_EcallServiceOnePrintsTheInteger : readReg (wEcall 1#32) 17#5 = 1#32 := by decide
theorem test_witness_EcallServiceFourPrintsTheString : readReg (wEcall 4#32) 17#5 = 4#32 := by decide
theorem test_witness_EcallServiceTenExits : readReg (wEcall 10#32) 17#5 = 10#32 ∧ Executes (wEcall 10#32) .ecall :=
  ⟨by decide, 0x00000073#32, by decide, by decide⟩
theorem test_witness_EcallIgnoresUnknownServices :
    readReg (wEcall 0#32) 17#5 ∉ [1#32, 4#32, 10#32] ∧ readReg (wEcall 0x101#32) 17#5 ∉ [1#32, 4#32, 10#32] := by decide
theorem test_witness_StepRunsTheDecodedInstruction :
    wAddi.status = .running ∧ ¬ (wAddi.cfg.misalignedPcPolicy = .fault ∧ wAddi.pc.toNat % 4 ≠ 0) ∧
      wAddi.pc.toNat + 4 ≤ wAddi.cfg.memCapacity ∧
      0x00130293#32 = memGet wAddi.mem (wAddi.pc.toNat + 3) ++ memGet wAddi.mem (wAddi.pc.toNat + 2) ++
        memGet wAddi.mem (wAddi.pc.toNat + 1) ++ memGet wAddi.mem wAddi.pc.toNat ∧
      decode wAddi.cfg.strictDecode 0x00130293#32 = .instr (.addi 5 6 1) := by decide
theorem test_witness_HaltIsSticky : (afterStep wOob).status ≠ .running ∧ (afterStep wUnknown).status ≠ .running := by decide
theorem test_witness_ZeroFetchHalts :
    (wOob.status = .running ∧ ¬ StopsMisaligned wOob ∧ wOob.cfg.memCapacity < wOob.pc.toNat + 4) ∧
    (wZero.status = .running ∧ ¬ StopsMisaligned wZero ∧ wZero.pc.toNat + 4 ≤ wZero.cfg.memCapacity ∧
      ∀ k, k < 4 → memGet wZero.mem (wZero.pc.toNat + k) = 0#8) := by decide
theorem test_witness_MisalignedPcHaltsUnderFaultPolicyOnly :
    (wMisaligned.status = .running ∧ wMisaligned.cfg.misalignedPcPolicy = .fault ∧ wMisaligned.pc.toNat % 4 ≠ 0) ∧
      wOob.status = .running ∧ wOob.cfg.misalignedPcPolicy = .fetch := by decide
theorem test_witness_DecodeFaultHaltsOrSkips :
    (FetchesWord wUnknown 0x0FF0000F#32 ∧ decode wUnknown.cfg.strictDecode 0x0FF0000F#32 = .fault .unknownOpcode ∧
      wUnknown.cfg.decodeFaultPolicy = .halt) ∧
    FetchesWord wUnknownSkip 0x0FF0000F#32 ∧ decode wUnknownSkip.cfg.strictDecode 0x0FF0000F#32 = .fault .unknownOpcode ∧
      wUnknownSkip.cfg.decodeFaultPolicy = .skip := by decide
theorem test_witness_OutOfBoundsAccessHaltsWithNothingChanged :
    (Executes wLoadOut (.lw 5 6 0) ∧ dataAccess wLoadOut (.lw 5 6 0) = some (0xFFD#32, .word, .load) ∧
      wLoadOut.cfg.memCapacity < (0xFFD#32).toNat + widthBytes .word) ∧
    Executes wStoreOut (.sw 7 6 0) ∧ dataAccess wStoreOut (.sw 7 6 0) = some (0xFFD#32, .word, .store) ∧
      wStoreOut.cfg.memCapacity < (0xFFD#32).toNat + widthBytes .word :=
  ⟨⟨⟨0x00032283#32, by decide, by decide⟩, by decide, by decide⟩, ⟨0x00732023#32, by decide, by decide⟩, by decide, by decide⟩
theorem test_witness_CounterCountsNonZeroFetches :
    (step wUnknown = .next (afterStep wUnknown) ∧ ∃ w, FetchesWord wUnknown w) ∧
      step wZero = .next (afterStep wZero) ∧ ¬ ∃ w, FetchesWord wZero w :=
  ⟨⟨rfl, 0x0FF0000F#32, by decide⟩, rfl, fun ⟨_, h⟩ => h.2.2.2.2 (h.2.2.2.1.symm.trans (by decide))⟩
theorem test_witness_EventsComeFromTheirCauses :
    step wOob = .next (afterStep wOob) ∧ step (wEcall 1#32) = .next (afterStep (wEcall 1#32)) := ⟨rfl, rfl⟩
/-- A step that emits nothing and one that emits an event. -/
theorem test_witness_StepAnswersRunningAndItsEvents :
    step wAddi = .next (afterStep wAddi) ∧ step (wEcall 1#32) = .next (afterStep (wEcall 1#32)) := ⟨rfl, rfl⟩
/-- A step that ends in each halt. -/
theorem test_witness_EachHaltHasItsCause :
    (wZero.status = .running ∧ step wZero = .next (afterStep wZero) ∧ (afterStep wZero).status = .haltZero) ∧
      (step (wEcall 10#32) = .next (afterStep (wEcall 10#32)) ∧ (afterStep (wEcall 10#32)).status = .haltExit) ∧
      (step wUnknown = .next (afterStep wUnknown) ∧ (afterStep wUnknown).status = .haltDecodeFault) ∧
      (step wLoadOut = .next (afterStep wLoadOut) ∧ (afterStep wLoadOut).status = .haltMemFault) ∧
      step wMisaligned = .next (afterStep wMisaligned) ∧ (afterStep wMisaligned).status = .haltPcMisaligned :=
  ⟨⟨by decide, rfl, by decide⟩, ⟨rfl, by decide⟩, ⟨rfl, by decide⟩, ⟨rfl, by decide⟩, rfl, by decide⟩
theorem test_witness_FaultsArePrecise :
    wLoadOut.status = .running ∧ step wLoadOut = .next (afterStep wLoadOut) ∧ (afterStep wLoadOut).status ≠ .running ∧
      (afterStep wLoadOut).status ≠ .haltExit ∧ (afterStep wLoadOut).status = .haltMemFault ∧
      wOob.status = .running ∧ step wOob = .next (afterStep wOob) ∧ (afterStep wOob).status = .haltZero :=
  ⟨by decide, rfl, by decide, by decide, by decide, by decide, rfl, by decide⟩
theorem test_witness_OnlyStoresChangeMemory :
    step wStore = .next (afterStep wStore) ∧ memGet (afterStep wStore).mem 0xFFF ≠ memGet wStore.mem 0xFFF :=
  ⟨rfl, by decide⟩
theorem test_witness_OnlyTheDestinationRegisterChanges :
    step wAddi = .next (afterStep wAddi) ∧ readReg (afterStep wAddi) 5#5 ≠ readReg wAddi 5#5 := ⟨rfl, by decide⟩
theorem test_witness_QuietCounterAndEventsAreNeverRead : step wAddi = .next (afterStep wAddi) := rfl
theorem test_witness_ResetMeetsTheInvariant :
    ({ vecConfig with memCapacity := 4 } : Config).Legal ∧ ({ vecConfig with memCapacity := 2 ^ 32 } : Config).Legal := by decide
theorem test_witness_StepKeepsTheInvariant :
    step wStore = .next (afterStep wStore) ∧ Inv wStore ∧ PcEven wStore := ⟨rfl, by decide, by decide⟩
theorem test_witness_TransactionsKeepTheInvariant : Inv wStore ∧ Inv State.reset := by decide
/-- A run of two steps: addi, then the zero word after it. -/
theorem test_witness_RunsEndOnceNormallyOrInAFault : RunEnds wAddi 2 (stepN 2 wAddi) :=
  ⟨by decide, rfl, by decide, by decide⟩
theorem test_witness_NormalRunsUnderHaltMetNoDecodeFault :
    RunEnds wAddi 2 (stepN 2 wAddi) ∧ wAddi.cfg.decodeFaultPolicy = .halt ∧ RunEnds wUnknown 1 (stepN 1 wUnknown) ∧
      wUnknown.cfg.decodeFaultPolicy = .halt :=
  ⟨⟨by decide, rfl, by decide, by decide⟩, by decide, ⟨by decide, rfl, by decide, by decide⟩, by decide⟩
/-- An image of one loadable segment of two bytes. -/
def wImage : ElfImage where
  is32Bit := true
  littleEndian := true
  machine := 243
  segments := [⟨1, 0xFFE#32, 2, [0xAA#8, 0xBB#8]⟩]
  entry := 0xFFE#32
theorem test_witness_LoadElfCopiesTheLoadableSegments :
    transact wAddi (.loadElf (some wImage)) = (.loaded true, (transact wAddi (.loadElf (some wImage))).2) := by
  exact Prod.ext (by decide) rfl
theorem test_witness_LoadsKeepRegistersCounterAndQuiet :
    transact wAddi (.loadRaw [1#32]) = (.done, (transact wAddi (.loadRaw [1#32])).2) ∧
      (transact wAddi (.loadElf (some wImage))).1 ≠ .loaded false ∧
      (transact wAddi (.loadElf (some { wImage with machine := 3 }))).1 = .loaded false ∧
      transact wAddi (.loadElf none) = (.loaded false, wAddi) := ⟨rfl, by decide, by decide, rfl⟩

end Sys2Proof.Tests
end

section
/-! SUPPORT. The proofs of the statements about the block's state: READ_REG (10_state.md R27), and the sticky halt with the
transactions that end it (10_state.md R35, 40_execution_cycle.md R102). -/

namespace Sys2Proof.Machine

/-! ### READ_REG -/

@[simp] theorem hostReadReg_toNat (s : State) (r : Reg) : hostReadReg s r.toNat = readReg s r := by
  have inRange : 0 ≤ (r.toNat : Int) ∧ (r.toNat : Int) ≤ 31 := by omega
  rw [hostReadReg, if_pos inRange, BitVec.ofInt_natCast, BitVec.ofNat_toNat, BitVec.setWidth_eq]

theorem hostReadReg_of_outOfRange (s : State) {i : Int} (h : i < 0 ∨ 31 < i) : hostReadReg s i = 0#32 :=
  if_neg (by omega)

/-- Settles O3: both answers are those of `hostReadReg`, and the transaction returns the state it was given. -/
theorem hostReadRegIsZeroOutOfRange : Obligations.HostReadRegIsZeroOutOfRange := by
  unfold Obligations.HostReadRegIsZeroOutOfRange
  refine fun s => ⟨fun r => ?_, fun i hi => ?_⟩
  · rw [transact, hostReadReg_toNat]
  · rw [transact, hostReadReg_of_outOfRange s hi]

/-! ### A halted block stays where it is -/

/-- A machine whose step answers the same state stays in it for any number of steps. -/
theorem run_of_step_eq_self (M : Host.Core) {s : M.State} (h : M.step s = .next s) (k : Nat) : M.run k s = .next s := by
  induction k with
  | zero => rfl
  | succ k ih => simp only [Host.Core.run, h, ih]

theorem afterStep_of_next {s t : State} (h : step s = .next t) : afterStep s = t := by simp only [afterStep, h]

@[simp] theorem running_eq_false_iff (s : State) : running s = false ↔ s.status ≠ .running := beq_eq_false_iff_ne

/-- STEP while halted (10_state.md R35). -/
theorem hostStep_of_halted {s : State} (h : s.status ≠ .running) : hostStep s = (.stepped false [], s) := by
  rw [hostStep, afterStep_of_next (step_of_halted h), (running_eq_false_iff s).2 h, List.drop_length]

/-! ### What starts it again -/

@[simp] theorem loadRaw_status (s : State) (ws : List Word) : (loadRaw s ws).status = .running := rfl

@[simp] theorem hostReset_status (s : State) : (hostReset s).status = .running := rfl

/-- LOAD_ELF fails and changes nothing, or succeeds and finishes a load (70_reset_and_hazards.md R208, R209). -/
theorem loadElf_cases (s : State) (image : Option ElfImage) :
    loadElf s image = (false, s) ∨ ∃ m entry, loadElf s image = (true, finishLoad s m entry) := by
  cases image with
  | none => exact .inl rfl
  | some img =>
    by_cases hv : elfValid s.cfg.memCapacity img
    · exact .inr ⟨_, _, if_pos hv⟩
    · exact .inl (if_neg hv)

/-- LOAD_ELF on a halted block starts it exactly when it succeeds. -/
theorem loadElf_status_of_halted {s : State} (h : s.status ≠ .running) (image : Option ElfImage) :
    (loadElf s image).2.status = .running ↔ (loadElf s image).1 = true := by
  rcases loadElf_cases s image with he | ⟨m, entry, he⟩
  · simp [he, h]
  · simp [he]

/-- The transactions that start a halted block: every other one leaves its status as it is. -/
theorem transact_status_of_halted {s : State} (h : s.status ≠ .running) (a : Transaction) :
    (transact s a).2.status = .running ↔
      a = .reset ∨ (∃ ws, a = .loadRaw ws) ∨ ∃ img, a = .loadElf img ∧ (transact s a).1 = .loaded true := by
  cases a with
  | step => simp [transact, hostStep_of_halted h, h]
  | loadRaw ws => simp [transact]
  | loadElf image => simp [transact, loadElf_status_of_halted h image]
  | reset => simp [transact]
  | readReg | readPc | readIcount | readStatus | setQuiet => simp [transact, h]

/-- Settles O34: a halted state is a fixed point of `step`, by induction on the number of steps and by `hostStep` for the
answer, and the transactions that start the block again are read off one by one. -/
theorem haltIsSticky : Obligations.HaltIsSticky := by
  unfold Obligations.HaltIsSticky
  exact fun s h => ⟨run_of_step_eq_self core (step_of_halted h), hostStep_of_halted h, transact_status_of_halted h⟩

end Sys2Proof.Machine
end

section
/-! SUPPORT. The proofs of the statements about memory: MemRead as a number (20_memory.md R48) and the bytes that MemWrite
changes (20_memory.md R49). -/

namespace Sys2Proof.Machine

/-! ### MemRead as a number -/

/-- The byte at the lowest address is the lowest digit, in base 256, of the number read. -/
theorem memRead_succ_toNat (m : Memory) (a n : Nat) :
    (memRead m a (n + 1)).toNat = (memRead m (a + 1) n).toNat * 2 ^ 8 + (memGet m a).toNat := by
  have lowByte : (memGet m a).toNat < 2 ^ 8 := (memGet m a).isLt
  rw [memRead, BitVec.toNat_append, ← Nat.shiftLeft_add_eq_or_of_lt lowByte, Nat.shiftLeft_eq]

/-- Settles O4, by induction on the number of bytes: the bytes after the first are a shorter read one address up, and each
stands one byte higher in the whole number. -/
theorem memReadIsLittleEndian : Obligations.MemReadIsLittleEndian := by
  unfold Obligations.MemReadIsLittleEndian
  intro m a n
  induction n generalizing a with
  | zero => rfl
  | succ n ih =>
    rw [memRead_succ_toNat, ih (a + 1), Finset.sum_range_succ', Finset.sum_mul]
    congr 1
    · refine Finset.sum_congr rfl fun k _ => ?_
      rw [Nat.add_assoc a 1 k, Nat.add_comm 1 k, Nat.mul_add_one, pow_add, Nat.mul_assoc]
    · simp

/-! ### The bytes of MemWrite -/

/-- Byte `k` of a word is a quotient of its number: `v[8k+7 : 8k]` of 20_memory.md R49. -/
theorem extractLsb'_byte_eq_ofNat_div (v : Word) (k : Nat) :
    v.extractLsb' (8 * k) 8 = BitVec.ofNat 8 (v.toNat / 2 ^ (8 * k)) := by
  rw [BitVec.extractLsb', Nat.shiftRight_eq_div_pow]

/-- Settles O5: `memGet_memWrite` says what every byte reads as, so an address in the range takes its first branch and an
address outside it the second. -/
theorem memWriteChangesItsBytesOnly : Obligations.MemWriteChangesItsBytesOnly := by
  unfold Obligations.MemWriteChangesItsBytesOnly
  refine fun m a n v _ => ⟨fun k hk => ?_, fun b hb => ?_⟩
  · have inRange : a ≤ a + k ∧ a + k < a + n := by omega
    rw [memGet_memWrite, if_pos inRange, Nat.add_sub_cancel_left, extractLsb'_byte_eq_ofNat_div]
  · have outOfRange : ¬(a ≤ b ∧ b < a + n) := by omega
    rw [memGet_memWrite, if_neg outOfRange]

end Sys2Proof.Machine
end

section
/-! SUPPORT. The proofs of the statements about encoding: the six immediates as numbers (30_encoding.md R81 to R86), and
which words are each kind of decode fault (30_encoding.md R78 to R80). -/

namespace Sys2Proof

open Sys2Proof.Machine

/-! ### The immediates as numbers: fields joined by `++` are digits, and only the topmost field carries the sign -/

/-- A single bit as a signed number is 0 or -1. -/
theorem toInt_bit (b : BitVec 1) : b.toInt = -(b.toNat : Int) := by
  revert b; decide

theorem toInt_append_of_pos {n m : Nat} (hn : 0 < n) (x : BitVec n) (y : BitVec m) :
    (x ++ y).toInt = 2 ^ m * x.toInt + y.toNat := by
  have wide : ¬ (n == 0) = true := by simpa using Nat.ne_of_gt hn
  rw [BitVec.toInt_append, if_neg wide]

/-- A field that reaches up to inst[31] is a signed number with the sign bit inst[31]. -/
theorem toInt_topField (w : Word) {lo n : Nat} (h : 31 = lo + n) :
    (w.extractLsb' lo (1 + n)).toInt = (w.extractLsb' lo n).toNat - 2 ^ n * (w.extractLsb' 31 1).toNat := by
  have split : w.extractLsb' 31 1 ++ w.extractLsb' lo n = w.extractLsb' lo (1 + n) :=
    BitVec.extractLsb'_append_extractLsb'_eq_extractLsb' h
  rw [← split, toInt_append_of_pos Nat.one_pos, toInt_bit]
  ring

/-- imm_I (R81). -/
theorem imm12_immIOf_toInt (w : Word) :
    (imm12 (immIOf w)).toInt = (w.extractLsb' 20 11).toNat - 2048 * (w.extractLsb' 31 1).toNat := by
  rw [imm12, BitVec.toInt_signExtend_of_le (by decide)]
  exact toInt_topField w (lo := 20) (n := 11) rfl

/-- imm_S (R82). -/
theorem imm12_immSOf_toInt (w : Word) :
    (imm12 (immSOf w)).toInt =
      (w.extractLsb' 7 5).toNat + 32 * (w.extractLsb' 25 6).toNat - 2048 * (w.extractLsb' 31 1).toNat := by
  have high : (w.extractLsb' 25 7).toInt = (w.extractLsb' 25 6).toNat - 2 ^ 6 * (w.extractLsb' 31 1).toNat :=
    toInt_topField w (lo := 25) (n := 6) rfl
  rw [imm12, BitVec.toInt_signExtend_of_le (by decide), immSOf, toInt_append_of_pos (by decide), high]
  ring

/-- imm_B (R83). -/
theorem immB_immBOf_toInt (w : Word) :
    (immB (immBOf w)).toInt =
      2 * (w.extractLsb' 8 4).toNat + 32 * (w.extractLsb' 25 6).toNat + 2048 * (w.extractLsb' 7 1).toNat -
        4096 * (w.extractLsb' 31 1).toNat := by
  rw [immB, BitVec.toInt_signExtend_of_le (by decide), immBOf]
  iterate 4 rw [toInt_append_of_pos (by decide)]
  rw [toInt_bit, BitVec.toNat_ofNat]
  ring

/-- imm_J (R85). -/
theorem immJ_immJOf_toInt (w : Word) :
    (immJ (immJOf w)).toInt =
      2 * (w.extractLsb' 21 10).toNat + 2048 * (w.extractLsb' 20 1).toNat + 4096 * (w.extractLsb' 12 8).toNat -
        1048576 * (w.extractLsb' 31 1).toNat := by
  rw [immJ, BitVec.toInt_signExtend_of_le (by decide), immJOf]
  iterate 4 rw [toInt_append_of_pos (by decide)]
  rw [toInt_bit, BitVec.toNat_ofNat]
  ring

/-- imm_U (R84): the mask keeps the upper twenty bits and clears the lower twelve. -/
theorem immU_immUOf (w : Word) : immU (immUOf w) = w &&& 0xFFFFF000#32 := by
  have word : w.extractLsb' 12 20 ++ w.extractLsb' 0 12 = w := BitVec.extractLsb'_append_extractLsb'
  have mask : BitVec.allOnes 20 ++ 0#12 = 0xFFFFF000#32 := rfl
  calc immU (immUOf w)
      = (w.extractLsb' 12 20 &&& BitVec.allOnes 20) ++ (w.extractLsb' 0 12 &&& 0#12) := by
        rw [BitVec.and_allOnes, BitVec.and_zero, immU, immUOf]
    _ = w &&& 0xFFFFF000#32 := by rw [← BitVec.and_append, word, mask]

/-- Settles O7: each immediate is the number of its own lemma. -/
theorem immediatesAreTheNumbersOfTheirBits : Obligations.ImmediatesAreTheNumbersOfTheirBits := by
  unfold Obligations.ImmediatesAreTheNumbersOfTheirBits
  intro w f hf
  simp only [hf]
  exact ⟨imm12_immIOf_toInt w, imm12_immSOf_toInt w, immB_immBOf_toInt w, immU_immUOf w, immJ_immJOf_toInt w, rfl,
    (shamtOf w).isLt⟩

/-! ### UNKNOWN_OPCODE -/

/-- The ten opcodes of R76 as numbers. -/
theorem knownOpcode_iff_toNat_mem (w : Word) :
    KnownOpcode w ↔
      (w.extractLsb' 0 7).toNat ∈ [0x13, 0x33, 0x03, 0x23, 0x63, 0x37, 0x17, 0x6F, 0x67, 0x73] := by
  simp only [KnownOpcode, ← BitVec.toNat_inj, List.mem_cons, List.not_mem_nil, or_false]
  rfl

theorem decode_eq_unknownOpcode_iff (strict : Bool) (w : Word) :
    decode strict w = .fault .unknownOpcode ↔ w ≠ 0#32 ∧ ¬ KnownOpcode w := by
  refine ⟨fun h => ⟨?_, fun hk => ?_⟩, fun ⟨hw, hk⟩ => decode_unknown hw hk strict⟩
  · rintro rfl
    cases h
  · rcases decode_known hk strict with ⟨i, e, -⟩ | e | e <;> cases h.symm.trans e

/-- Settles O11: the fault is that of the words outside `KnownOpcode`, whose ten opcodes are the listed numbers. -/
theorem unknownOpcodeIsAnOpcodeOutsideTheMap : Obligations.UnknownOpcodeIsAnOpcodeOutsideTheMap := by
  unfold Obligations.UnknownOpcodeIsAnOpcodeOutsideTheMap
  intro strict w
  rw [decode_eq_unknownOpcode_iff, knownOpcode_iff_toNat_mem]

/-! ### The faults of a known opcode -/

/-- A decode fault other than UNKNOWN_OPCODE comes from one of the ten opcodes. -/
theorem knownOpcode_of_decode_eq_fault {strict : Bool} {w : Word} {k : DecodeFaultKind}
    (h : decode strict w = .fault k) (hk : k ≠ .unknownOpcode) : KnownOpcode w := by
  by_contra hu
  by_cases hw : w = 0#32
  · rw [hw, decode_zero] at h
    cases h
  · rw [decode_unknown hw hu] at h
    cases h
    exact hk rfl

/-- A decode fault other than UNKNOWN_OPCODE is that of one of the seven families that examine funct3 or funct7. -/
theorem decode_eq_fault_iff {k : DecodeFaultKind} (hk : k ≠ .unknownOpcode) (strict : Bool) (w : Word) :
    decode strict w = .fault k ↔
      opcodeOf w = opcOp ∧ decodeOp strict w = .fault k ∨
      opcodeOf w = opcOpImm ∧ decodeOpImm strict w = .fault k ∨
      opcodeOf w = opcLoad ∧ decodeLoad w = .fault k ∨
      opcodeOf w = opcStore ∧ decodeStore w = .fault k ∨
      opcodeOf w = opcBranch ∧ decodeBranch w = .fault k ∨
      opcodeOf w = opcJalr ∧ decodeJalr w = .fault k ∨
      opcodeOf w = opcSystem ∧ decodeSystem strict w = .fault k := by
  constructor
  · intro h
    rcases knownOpcode_of_decode_eq_fault h hk with ho | ho | ho | ho | ho | ho | ho | ho | ho | ho
    · exact .inr (.inl ⟨ho, decode_opImm ho strict ▸ h⟩)
    · exact .inl ⟨ho, decode_op ho strict ▸ h⟩
    · exact .inr (.inr (.inl ⟨ho, decode_load ho strict ▸ h⟩))
    · exact .inr (.inr (.inr (.inl ⟨ho, decode_store ho strict ▸ h⟩)))
    · exact .inr (.inr (.inr (.inr (.inl ⟨ho, decode_branch ho strict ▸ h⟩))))
    · cases (decode_lui ho strict).symm.trans h
    · cases (decode_auipc ho strict).symm.trans h
    · cases (decode_jal ho strict).symm.trans h
    · exact .inr (.inr (.inr (.inr (.inr (.inl ⟨ho, decode_jalr ho strict ▸ h⟩)))))
    · exact .inr (.inr (.inr (.inr (.inr (.inr ⟨ho, decode_system ho strict ▸ h⟩)))))
  · rintro (⟨ho, h⟩ | ⟨ho, h⟩ | ⟨ho, h⟩ | ⟨ho, h⟩ | ⟨ho, h⟩ | ⟨ho, h⟩ | ⟨ho, h⟩)
    · exact (decode_op ho strict).trans h
    · exact (decode_opImm ho strict).trans h
    · exact (decode_load ho strict).trans h
    · exact (decode_store ho strict).trans h
    · exact (decode_branch ho strict).trans h
    · exact (decode_jalr ho strict).trans h
    · exact (decode_system ho strict).trans h

/-! ### BAD_FUNCT3 -/

theorem needFunct7_ne_badFunct3 (strict : Bool) (w : Word) (f7 : BitVec 7) (i : Instr) :
    needFunct7 strict w f7 i ≠ .fault .badFunct3 := by
  rcases needFunct7_cases strict w f7 i with ⟨-, e⟩ | ⟨-, -, e⟩ <;> simp [e]

theorem decodeOpImm_ne_badFunct3 (strict : Bool) (w : Word) : decodeOpImm strict w ≠ .fault .badFunct3 := by
  unfold decodeOpImm
  dsimp only
  split_ifs <;> simp [needFunct7_ne_badFunct3]

theorem decodeOp_ne_badFunct3 (strict : Bool) (w : Word) : decodeOp strict w ≠ .fault .badFunct3 := by
  unfold decodeOp
  dsimp only
  split_ifs <;> exact needFunct7_ne_badFunct3 _ _ _ _

theorem decodeSystem_ne_badFunct3 (strict : Bool) (w : Word) : decodeSystem strict w ≠ .fault .badFunct3 := by
  unfold decodeSystem
  split_ifs <;> simp

theorem decodeLoad_eq_badFunct3_iff (w : Word) :
    decodeLoad w = .fault .badFunct3 ↔ funct3Of w ∈ [3#3, 6#3, 7#3] := by
  rcases funct3_cases (funct3Of w) with h | h | h | h | h | h | h | h <;> simp [decodeLoad, h]

theorem decodeStore_eq_badFunct3_iff (w : Word) :
    decodeStore w = .fault .badFunct3 ↔ funct3Of w ∈ [3#3, 4#3, 5#3, 6#3, 7#3] := by
  rcases funct3_cases (funct3Of w) with h | h | h | h | h | h | h | h <;> simp [decodeStore, h]

theorem decodeBranch_eq_badFunct3_iff (w : Word) :
    decodeBranch w = .fault .badFunct3 ↔ funct3Of w ∈ [2#3, 3#3] := by
  rcases funct3_cases (funct3Of w) with h | h | h | h | h | h | h | h <;> simp [decodeBranch, h]

theorem decodeJalr_eq_badFunct3_iff (w : Word) : decodeJalr w = .fault .badFunct3 ↔ funct3Of w ≠ 0#3 := by
  by_cases h : funct3Of w = 0#3 <;> simp [decodeJalr, h]

/-- R79 in the decoder's own fields. -/
theorem decode_eq_badFunct3_iff (strict : Bool) (w : Word) :
    decode strict w = .fault .badFunct3 ↔
      opcodeOf w = opcLoad ∧ funct3Of w ∈ [3#3, 6#3, 7#3] ∨
      opcodeOf w = opcStore ∧ funct3Of w ∈ [3#3, 4#3, 5#3, 6#3, 7#3] ∨
      opcodeOf w = opcBranch ∧ funct3Of w ∈ [2#3, 3#3] ∨
      opcodeOf w = opcJalr ∧ funct3Of w ≠ 0#3 := by
  rw [decode_eq_fault_iff (by decide)]
  simp only [decodeOp_ne_badFunct3, decodeOpImm_ne_badFunct3, decodeLoad_eq_badFunct3_iff,
    decodeStore_eq_badFunct3_iff, decodeBranch_eq_badFunct3_iff, decodeJalr_eq_badFunct3_iff,
    decodeSystem_ne_badFunct3, and_false, false_or, or_false]

/-- Settles O12: `decode_eq_badFunct3_iff` with opcode and funct3 read as numbers. -/
theorem badFunct3IsAnUnassignedFunct3 : Obligations.BadFunct3IsAnUnassignedFunct3 := by
  unfold Obligations.BadFunct3IsAnUnassignedFunct3
  rintro strict w _ _ rfl rfl
  rw [decode_eq_badFunct3_iff]
  simp only [← BitVec.toNat_inj, List.mem_cons, List.not_mem_nil, or_false, ne_eq]
  rfl

/-! ### Without STRICT_DECODE: words that agree on the examined bits decode alike -/

theorem decodeOp_false_congr {w w' : Word} (hf3 : funct3Of w = funct3Of w') (hrd : rdOf w = rdOf w')
    (hrs1 : rs1Of w = rs1Of w') (hrs2 : rs2Of w = rs2Of w')
    (hb30 : funct3Of w = 0#3 ∨ funct3Of w = 5#3 → b30Of w = b30Of w') : decodeOp false w = decodeOp false w' := by
  simp only [decodeOp, needFunct7_lax, ← hf3, ← hrd, ← hrs1, ← hrs2]
  by_cases examined : funct3Of w = 0#3 ∨ funct3Of w = 5#3
  · rw [hb30 examined]
  · obtain ⟨notAddSub, notShiftRight⟩ := not_or.1 examined
    simp only [if_neg notAddSub, if_neg notShiftRight]

theorem decodeOpImm_false_congr_of_shift {w w' : Word} (hf3 : funct3Of w = funct3Of w') (hrd : rdOf w = rdOf w')
    (hrs1 : rs1Of w = rs1Of w') (hshamt : shamtOf w = shamtOf w')
    (hshift : funct3Of w = 1#3 ∨ funct3Of w = 5#3 ∧ b30Of w = b30Of w') :
    decodeOpImm false w = decodeOpImm false w' := by
  simp only [decodeOpImm, needFunct7_lax, ← hf3, ← hrd, ← hrs1, ← hshamt]
  rcases hshift with left | ⟨right, hb30⟩
  · simp [left]
  · simp [right, hb30]

theorem decodeSystem_false (w : Word) : decodeSystem false w = .instr .ecall :=
  if_neg fun h => Bool.false_ne_true h.1

/-! ### BAD_FUNCT7 -/

theorem needFunct7_eq_badFunct7_iff (strict : Bool) (w : Word) (f7 : BitVec 7) (i : Instr) :
    needFunct7 strict w f7 i = .fault .badFunct7 ↔ strict = true ∧ funct7Of w ≠ f7 := by
  rcases needFunct7_cases strict w f7 i with ⟨h, e⟩ | ⟨hs, hf, e⟩
  · simpa [e] using h
  · exact iff_of_true e ⟨hs, hf⟩

/-- inst[30] is bit 5 of funct7. -/
theorem b30Of_eq_getLsbD (w : Word) : b30Of w = (funct7Of w).getLsbD 5 := by
  simp [b30Of, funct7Of]

/-- The pairs told apart by inst[30] ask for funct7 0x20 or 0x00, and inst[30] is set in the one and clear in the other. -/
theorem ite_b30Of_eq_badFunct7_iff (strict : Bool) (w : Word) (i j : Instr) :
    (if b30Of w then needFunct7 strict w 0x20#7 i else needFunct7 strict w 0x00#7 j) = .fault .badFunct7 ↔
      strict = true ∧ funct7Of w ≠ 0x00#7 ∧ funct7Of w ≠ 0x20#7 := by
  cases hb : b30Of w with
  | true =>
    have ne00 : funct7Of w ≠ 0x00#7 := fun h => by simp [b30Of_eq_getLsbD, h] at hb
    simp [needFunct7_eq_badFunct7_iff, ne00]
  | false =>
    have ne20 : funct7Of w ≠ 0x20#7 := fun h => by simp [b30Of_eq_getLsbD, h] at hb
    simp [needFunct7_eq_badFunct7_iff, ne20]

theorem decodeOp_eq_badFunct7_iff (strict : Bool) (w : Word) :
    decodeOp strict w = .fault .badFunct7 ↔
      strict = true ∧ funct7Of w ≠ 0x00#7 ∧ (funct7Of w = 0x20#7 → funct3Of w ≠ 0#3 ∧ funct3Of w ≠ 5#3) := by
  rcases funct3_cases (funct3Of w) with h | h | h | h | h | h | h | h <;>
    simp [decodeOp, h, ite_b30Of_eq_badFunct7_iff, needFunct7_eq_badFunct7_iff]

theorem decodeOpImm_eq_badFunct7_iff (strict : Bool) (w : Word) :
    decodeOpImm strict w = .fault .badFunct7 ↔ strict = true ∧
      (funct3Of w = 1#3 ∧ funct7Of w ≠ 0x00#7 ∨
        funct3Of w = 5#3 ∧ b30Of w = false ∧ funct7Of w ≠ 0x00#7 ∨
        funct3Of w = 5#3 ∧ b30Of w = true ∧ funct7Of w ≠ 0x20#7) := by
  by_cases rightShift : funct3Of w = 5#3
  · cases hb : b30Of w <;> simp [decodeOpImm, rightShift, hb, needFunct7_eq_badFunct7_iff]
  · rcases funct3_cases (funct3Of w) with h | h | h | h | h | h | h | h <;>
      simp [decodeOpImm, h, needFunct7_eq_badFunct7_iff] at rightShift ⊢

theorem decodeSystem_eq_badFunct7_iff (strict : Bool) (w : Word) :
    decodeSystem strict w = .fault .badFunct7 ↔ strict = true ∧ w ≠ 0x00000073#32 := by
  by_cases h : strict = true ∧ w ≠ 0x00000073#32 <;> simp [decodeSystem, h]

theorem decodeLoad_ne_badFunct7 (w : Word) : decodeLoad w ≠ .fault .badFunct7 := by
  unfold decodeLoad
  dsimp only
  split_ifs <;> simp

theorem decodeStore_ne_badFunct7 (w : Word) : decodeStore w ≠ .fault .badFunct7 := by
  unfold decodeStore
  dsimp only
  split_ifs <;> simp

theorem decodeBranch_ne_badFunct7 (w : Word) : decodeBranch w ≠ .fault .badFunct7 := by
  unfold decodeBranch
  dsimp only
  split_ifs <;> simp

theorem decodeJalr_ne_badFunct7 (w : Word) : decodeJalr w ≠ .fault .badFunct7 := by
  unfold decodeJalr
  split_ifs <;> simp

/-- R80 in the decoder's own fields, under either value of STRICT_DECODE. -/
theorem decode_eq_badFunct7_iff (strict : Bool) (w : Word) :
    decode strict w = .fault .badFunct7 ↔ strict = true ∧
      (opcodeOf w = opcOp ∧ funct7Of w ≠ 0x00#7 ∧ (funct7Of w = 0x20#7 → funct3Of w ≠ 0#3 ∧ funct3Of w ≠ 5#3) ∨
        opcodeOf w = opcOpImm ∧ funct3Of w = 1#3 ∧ funct7Of w ≠ 0x00#7 ∨
        opcodeOf w = opcOpImm ∧ funct3Of w = 5#3 ∧ b30Of w = false ∧ funct7Of w ≠ 0x00#7 ∨
        opcodeOf w = opcOpImm ∧ funct3Of w = 5#3 ∧ b30Of w = true ∧ funct7Of w ≠ 0x20#7 ∨
        opcodeOf w = opcSystem ∧ w ≠ 0x00000073#32) := by
  rw [decode_eq_fault_iff (by decide)]
  simp only [decodeOp_eq_badFunct7_iff, decodeOpImm_eq_badFunct7_iff, decodeLoad_ne_badFunct7,
    decodeStore_ne_badFunct7, decodeBranch_ne_badFunct7, decodeJalr_ne_badFunct7, decodeSystem_eq_badFunct7_iff,
    and_false, false_or, and_left_comm (b := strict = true), ← and_or_left]
  simp only [and_or_left, or_assoc]

/-- Settles O13: the lax decoder's answer is computed from the examined fields alone, and the two facts about BAD_FUNCT7
are `decode_eq_badFunct7_iff` without and with STRICT_DECODE, its fields read as numbers. -/
theorem unexaminedBitsCountUnderStrictDecodeOnly : Obligations.UnexaminedBitsCountUnderStrictDecodeOnly := by
  unfold Obligations.UnexaminedBitsCountUnderStrictDecodeOnly
  refine ⟨fun w h => ?neverLax, fun w w' ho ho' hf3 hrd hrs1 hrs2 hb30 => ?op,
    fun w w' ho ho' hf3 hrd hrs1 hshamt hshift => ?shift, fun w w' ho ho' => ?system, ?strict⟩
  case neverLax =>
    exact Bool.false_ne_true ((decode_eq_badFunct7_iff false w).1 h).1
  case op =>
    rw [decode_op ho, decode_op ho', decodeOp_false_congr hf3 hrd hrs1 hrs2 hb30]
  case shift =>
    rw [decode_opImm ho, decode_opImm ho', decodeOpImm_false_congr_of_shift hf3 hrd hrs1 hshamt hshift]
  case system =>
    rw [decode_system ho, decode_system ho', decodeSystem_false, decodeSystem_false]
  case strict =>
    rintro w _ _ _ rfl rfl rfl
    rw [decode_eq_badFunct7_iff]
    simp only [← BitVec.toNat_inj, true_and, ne_eq]
    rfl

end Sys2Proof
end

section
/-! SUPPORT. The proofs of the statements about the step's own halts: the zero word and the fetch out of bounds
(40_execution_cycle.md R105), and the decode fault under each policy (40_execution_cycle.md R113). -/

namespace Sys2Proof.Machine

open Sys2Proof.Safety

/-! ### A halt changes the status and the events only -/

theorem halt_halts (s : State) (cause : Status) (es : List Event) : Halts s (halt s cause es) cause es :=
  ⟨rfl, rfl, rfl, rfl, fun _ => rfl, rfl, rfl, rfl⟩

/-! ### The zero word -/

theorem memRead_eq_zero {m : Memory} {a n : Nat} (h : ∀ k, k < n → memGet m (a + k) = 0#8) :
    memRead m a n = 0#(8 * n) := by
  refine BitVec.eq_of_getLsbD_eq fun i hi => ?_
  have byteInRange : i / 8 < n := by omega
  rw [getLsbD_memRead, h _ byteInRange, BitVec.getLsbD_zero, BitVec.getLsbD_zero, Bool.and_false]

/-- Settles O35: the two clauses are `step_of_oob` and `step_of_zero`, both a `halt` with HALT_ZERO; four zero bytes at the
pc are the zero word by `memRead_eq_zero`. -/
theorem zeroFetchHalts : Obligations.ZeroFetchHalts := by
  unfold Obligations.ZeroFetchHalts
  refine fun s hr hm => ⟨fun hout => ?outOfBounds, fun hin hbytes => ?zeroWord⟩
  case outOfBounds =>
    have hoob : FetchOob s := by omega
    exact ⟨_, step_of_oob hr hm hoob, rfl, halt_halts s _ _⟩
  case zeroWord =>
    have hinBounds : ¬ FetchOob s := by omega
    have hzero : wordAtPc s = 0#32 := memRead_eq_zero hbytes
    exact ⟨_, step_of_zero hr hm hinBounds hzero, rfl, halt_halts s _ _⟩

/-! ### The decode fault -/

theorem takeDecodeFault_of_halt {s : State} (h : s.cfg.decodeFaultPolicy = .halt) (w : Word) (k : DecodeFaultKind) :
    takeDecodeFault s w k = halt s .haltDecodeFault [.decodeFault s.pc w k] := by
  simp only [takeDecodeFault, h]

theorem takeDecodeFault_of_skip {s : State} (h : s.cfg.decodeFaultPolicy = .skip) (w : Word) (k : DecodeFaultKind) :
    takeDecodeFault s w k = setPc (emit s [.decodeFault s.pc w k]) (s.pc + 4#32) := by
  simp only [takeDecodeFault, h]

theorem setPc_emit_retiresQuietly (s : State) (next : Word) (es : List Event) :
    RetiresQuietly s (setPc (emit s es) next) next es :=
  ⟨rfl, rfl, fun _ => rfl, ⟨rfl, rfl, rfl⟩, rfl, rfl⟩

@[simp] theorem running_eq_true_iff (s : State) : running s = true ↔ s.status = .running := beq_iff_eq

/-- Settles O37: by `step_of_fault` the step is `takeDecodeFault` of the counted state, which halts or goes on at pc + 4 by
the policy. Going on, it leaves the status as it was, which is running. -/
theorem decodeFaultHaltsOrSkips : Obligations.DecodeFaultHaltsOrSkips := by
  unfold Obligations.DecodeFaultHaltsOrSkips
  intro s w k hf hd
  have hstep : step s = .next (takeDecodeFault (counted s) w k) := step_of_fault hf hd
  refine ⟨fun hpolicy => ?halt, fun hpolicy => ?skip⟩
  case halt =>
    rw [takeDecodeFault_of_halt (s := counted s) hpolicy] at hstep
    exact ⟨_, hstep, rfl, halt_halts (counted s) _ _⟩
  case skip =>
    rw [takeDecodeFault_of_skip (s := counted s) hpolicy] at hstep
    exact ⟨_, hstep, (running_eq_true_iff _).2 hf.1, setPc_emit_retiresQuietly (counted s) _ _⟩

end Sys2Proof.Machine
end

section
/-! SUPPORT. The proofs of the statements about OP-IMM (41_op_imm.md): the words of each instruction, and its result with
all that it leaves unchanged. -/

namespace Sys2Proof.Machine

open Sys2Proof.Safety

/-! ### The 32-bit operations as arithmetic on numbers -/

theorem add_eq_ofInt (a b : Word) : a + b = BitVec.ofInt 32 (a.toInt + b.toInt) := by
  rw [BitVec.ofInt_add, BitVec.ofInt_toInt, BitVec.ofInt_toInt]

theorem shiftLeft_eq_ofNat_mul (a : Word) (n : Nat) : a <<< n = BitVec.ofNat 32 (a.toNat * 2 ^ n) := by
  rw [← Nat.shiftLeft_eq]
  exact BitVec.shiftLeft_eq a n

theorem ushiftRight_eq_ofNat_div (a : Word) (n : Nat) : a >>> n = BitVec.ofNat 32 (a.toNat / 2 ^ n) := by
  rw [← Nat.shiftRight_eq_div_pow, ← BitVec.toNat_ushiftRight, BitVec.ofNat_toNat, BitVec.setWidth_eq]

/-- Filling with the sign rounds the quotient down, as `/` on `Int` does for a positive divisor. -/
theorem sshiftRight_eq_ofInt_div (a : Word) (n : Nat) : a.sshiftRight n = BitVec.ofInt 32 (a.toInt / 2 ^ n) := by
  rw [BitVec.sshiftRight, Int.shiftRight_eq_div_pow, Nat.cast_pow, Nat.cast_ofNat]

theorem boolWord_ltSigned (a b : Word) : boolWord (ltSigned a b) = if a.toInt < b.toInt then 1#32 else 0#32 := by
  simp only [boolWord, ltSigned, BitVec.slt, decide_eq_true_eq]

theorem imm12_toInt (imm : BitVec 12) : (imm12 imm).toInt = imm.toInt :=
  BitVec.toInt_signExtend_of_le (by decide)

/-! ### The shape of an OP-IMM rule -/

/-- An instruction whose outcome is a register write completes, at pc + 4, with that write and nothing else. -/
theorem exec_retires_of_effWrite {s : State} {i : Instr} {rd : Reg} {v : Word} (h : effectOf s i = effWrite rd v) :
    ∃ t, exec i s = .next t ∧ Retires s t rd v (s.pc + 4#32) :=
  ⟨_, exec_eq_commit i s, h ▸ commit_effWrite s rd v⟩

/-- A register-immediate rule holds when its funct3 decodes to the instruction and the outcome is the write of its value. -/
theorem opImmRule_of {f3 : BitVec 3} {mk : Reg → Reg → BitVec 12 → Instr} {value : Word → BitVec 12 → Word}
    (decodes : ∀ strict w, funct3Of w = f3 → decodeOpImm strict w = .instr (mk (rdOf w) (rs1Of w) (immIOf w)))
    (writes : ∀ s rd rs1 imm, effectOf s (mk rd rs1 imm) = effWrite rd (value (readReg s rs1) imm)) :
    OpImmRule f3 mk value :=
  ⟨fun strict w ho hf3 => (decode_opImm ho strict).trans (decodes strict w hf3),
    fun s rd rs1 imm => exec_retires_of_effWrite (writes s rd rs1 imm)⟩

/-- A rule for a shift by a constant holds when the decoder asks the selected words for its funct7 and the outcome is the
write of its value. -/
theorem shiftImmRule_of {f3 : BitVec 3} {sel : Word → Prop} {f7 : BitVec 7} {mk : Reg → Reg → BitVec 5 → Instr}
    {value : Word → Nat → Word}
    (decodes : ∀ strict w, funct3Of w = f3 → sel w →
      decodeOpImm strict w = needFunct7 strict w f7 (mk (rdOf w) (rs1Of w) (shamtOf w)))
    (writes : ∀ s rd rs1 sh, effectOf s (mk rd rs1 sh) = effWrite rd (value (readReg s rs1) sh.toNat)) :
    ShiftImmRule f3 sel f7 mk value :=
  ⟨fun strict w ho hf3 hsel hf7 =>
      (decode_opImm ho strict).trans ((decodes strict w hf3 hsel).trans (needFunct7_ok hf7)),
    fun s rd rs1 sh => exec_retires_of_effWrite (writes s rd rs1 sh)⟩

/-! ### ADDI, SLTI, XORI, ORI and ANDI -/

/-- Settles O15, instruction by instruction with `opImmRule_of`: ADDI adds and SLTI compares the signed numbers of its
operands, and the logic instructions are the rule's own operations. -/
theorem registerImmediateResults : Obligations.RegisterImmediateResults := by
  unfold Obligations.RegisterImmediateResults
  refine ⟨?addi, ?slti, ?xori, ?ori, ?andi⟩
  case addi =>
    refine opImmRule_of (fun strict w hf3 => ?_) fun s rd rs1 imm => ?_
    · simp [decodeOpImm, hf3]
    · rw [effectOf, add_eq_ofInt, imm12_toInt]
  case slti =>
    refine opImmRule_of (fun strict w hf3 => ?_) fun s rd rs1 imm => ?_
    · simp [decodeOpImm, hf3]
    · rw [effectOf, boolWord_ltSigned, imm12_toInt]
  case xori =>
    refine opImmRule_of (fun strict w hf3 => ?_) fun s rd rs1 imm => rfl
    simp [decodeOpImm, hf3]
  case ori =>
    refine opImmRule_of (fun strict w hf3 => ?_) fun s rd rs1 imm => rfl
    simp [decodeOpImm, hf3]
  case andi =>
    refine opImmRule_of (fun strict w hf3 => ?_) fun s rd rs1 imm => rfl
    simp [decodeOpImm, hf3]

/-! ### SLLI, SRLI and SRAI -/

/-- Settles O17, instruction by instruction with `shiftImmRule_of`: a left shift multiplies, a right shift divides the
unsigned or the signed number, and inst[30] tells the two right shifts apart. -/
theorem immediateShiftResults : Obligations.ImmediateShiftResults := by
  unfold Obligations.ImmediateShiftResults
  refine ⟨?slli, ?srli, ?srai⟩
  case slli =>
    refine shiftImmRule_of (fun strict w hf3 _ => ?_) fun s rd rs1 sh => ?_
    · simp [decodeOpImm, hf3]
    · rw [effectOf, shiftLeft_eq_ofNat_mul, shamtValue]
  case srli =>
    refine shiftImmRule_of (fun strict w hf3 hsel => ?_) fun s rd rs1 sh => ?_
    · have hb30 : b30Of w = false := hsel
      simp [decodeOpImm, hf3, hb30]
    · rw [effectOf, ushiftRight_eq_ofNat_div, shamtValue]
  case srai =>
    refine shiftImmRule_of (fun strict w hf3 hsel => ?_) fun s rd rs1 sh => ?_
    · have hb30 : b30Of w = true := hsel
      simp [decodeOpImm, hf3, hb30]
    · rw [effectOf, sshiftRight_eq_ofInt_div, shamtValue]

end Sys2Proof.Machine
end

section
/-! SUPPORT. The proofs of the statements about OP (42_op.md): the words of each instruction, and its result with all that
it leaves unchanged. -/

namespace Sys2Proof.Machine

open Sys2Proof.Safety

/-! ### The shape of an OP rule -/

/-- A register-register rule holds when the decoder asks the selected words for its funct7 and the outcome is the write of
its value. -/
theorem opRule_of {f3 : BitVec 3} {sel : Word → Prop} {f7 : BitVec 7} {mk : Reg → Reg → Reg → Instr}
    {value : Word → Word → Word}
    (decodes : ∀ strict w, funct3Of w = f3 → sel w →
      decodeOp strict w = needFunct7 strict w f7 (mk (rdOf w) (rs1Of w) (rs2Of w)))
    (writes : ∀ s rd rs1 rs2, effectOf s (mk rd rs1 rs2) = effWrite rd (value (readReg s rs1) (readReg s rs2))) :
    OpRule f3 sel f7 mk value :=
  ⟨fun strict w ho hf3 hsel hf7 =>
      (decode_op ho strict).trans ((decodes strict w hf3 hsel).trans (needFunct7_ok hf7)),
    fun s rd rs1 rs2 => exec_retires_of_effWrite (writes s rd rs1 rs2)⟩

/-! ### ADD, SUB, SLT and SLTU -/

/-- The difference of the unsigned numbers may be negative; narrowed to 32 bits it is the word's own difference. -/
theorem sub_eq_ofInt_sub_toNat (a b : Word) : a - b = BitVec.ofInt 32 (a.toNat - b.toNat) := by
  rw [Int.sub_eq_add_neg, BitVec.ofInt_add, BitVec.ofInt_neg, BitVec.ofInt_natCast, BitVec.ofInt_natCast,
    BitVec.ofNat_toNat, BitVec.ofNat_toNat, BitVec.setWidth_eq, BitVec.setWidth_eq, BitVec.sub_eq_add_neg]

theorem boolWord_ltUnsigned (a b : Word) : boolWord (ltUnsigned a b) = if a.toNat < b.toNat then 1#32 else 0#32 := by
  simp only [boolWord, ltUnsigned, BitVec.ult, decide_eq_true_eq]

/-- Settles O18, instruction by instruction with `opRule_of`: ADD and SUB narrow the exact sum and difference, SLT and
SLTU compare the signed and the unsigned numbers, and inst[30] tells SUB from ADD. -/
theorem registerArithmeticResults : Obligations.RegisterArithmeticResults := by
  unfold Obligations.RegisterArithmeticResults
  refine ⟨?add, ?sub, ?slt, ?sltu⟩
  case add =>
    refine opRule_of (fun strict w hf3 hsel => ?_) fun s rd rs1 rs2 => ?_
    · have hb30 : b30Of w = false := hsel
      simp [decodeOp, hf3, hb30]
    · rw [effectOf, BitVec.add_def]
  case sub =>
    refine opRule_of (fun strict w hf3 hsel => ?_) fun s rd rs1 rs2 => ?_
    · have hb30 : b30Of w = true := hsel
      simp [decodeOp, hf3, hb30]
    · rw [effectOf, sub_eq_ofInt_sub_toNat]
  case slt =>
    refine opRule_of (fun strict w hf3 _ => ?_) fun s rd rs1 rs2 => ?_
    · simp [decodeOp, hf3]
    · rw [effectOf, boolWord_ltSigned]
  case sltu =>
    refine opRule_of (fun strict w hf3 _ => ?_) fun s rd rs1 rs2 => ?_
    · simp [decodeOp, hf3]
    · rw [effectOf, boolWord_ltUnsigned]

/-! ### XOR, OR and AND -/

theorem eq_ofFnLE_of_getLsbD {v : Word} {f : Fin 32 → Bool} (h : ∀ k : Fin 32, v.getLsbD k = f k) :
    v = BitVec.ofFnLE f :=
  BitVec.eq_of_getElem_eq fun k hk => by
    rw [BitVec.getElem_ofFnLE, ← BitVec.getLsbD_eq_getElem]
    exact h ⟨k, hk⟩

/-- Settles O19, instruction by instruction with `opRule_of`: two words are equal when all their bits are
(`eq_ofFnLE_of_getLsbD`), and the bits of an XOR, OR or AND are the operation on the operands' bits. -/
theorem registerLogicResults : Obligations.RegisterLogicResults := by
  unfold Obligations.RegisterLogicResults
  refine ⟨?xor, ?or, ?and⟩
  case xor =>
    refine opRule_of (fun strict w hf3 _ => ?_) fun s rd rs1 rs2 => ?_
    · simp [decodeOp, hf3]
    · exact congrArg (effWrite rd) (eq_ofFnLE_of_getLsbD fun _ => BitVec.getLsbD_xor)
  case or =>
    refine opRule_of (fun strict w hf3 _ => ?_) fun s rd rs1 rs2 => ?_
    · simp [decodeOp, hf3]
    · exact congrArg (effWrite rd) (eq_ofFnLE_of_getLsbD fun _ => BitVec.getLsbD_or)
  case and =>
    refine opRule_of (fun strict w hf3 _ => ?_) fun s rd rs1 rs2 => ?_
    · simp [decodeOp, hf3]
    · exact congrArg (effWrite rd) (eq_ofFnLE_of_getLsbD fun _ => BitVec.getLsbD_and)

/-! ### SLL, SRL and SRA -/

/-- The low 5 bits of a word are its remainder modulo 32 (30_encoding.md R87). -/
theorem regShamt_eq_mod (v : Word) : regShamt v = v.toNat % 32 :=
  BitVec.extractLsb'_toNat 0 5 v

/-- Settles O20, instruction by instruction with `opRule_of`: the amount is x[rs2] mod 32, a left shift multiplies, a right
shift divides the unsigned or the signed number, and inst[30] tells the two right shifts apart. -/
theorem registerShiftResults : Obligations.RegisterShiftResults := by
  unfold Obligations.RegisterShiftResults
  refine ⟨?sll, ?srl, ?sra⟩
  case sll =>
    refine opRule_of (fun strict w hf3 _ => ?_) fun s rd rs1 rs2 => ?_
    · simp [decodeOp, hf3]
    · rw [effectOf, shiftLeft_eq_ofNat_mul, regShamt_eq_mod]
  case srl =>
    refine opRule_of (fun strict w hf3 hsel => ?_) fun s rd rs1 rs2 => ?_
    · have hb30 : b30Of w = false := hsel
      simp [decodeOp, hf3, hb30]
    · rw [effectOf, ushiftRight_eq_ofNat_div, regShamt_eq_mod]
  case sra =>
    refine opRule_of (fun strict w hf3 hsel => ?_) fun s rd rs1 rs2 => ?_
    · have hb30 : b30Of w = true := hsel
      simp [decodeOp, hf3, hb30]
    · rw [effectOf, sshiftRight_eq_ofInt_div, regShamt_eq_mod]

end Sys2Proof.Machine
end

section
/-! SUPPORT. The proofs of the statements about the loads (43_loads.md): the words of each instruction, its result with all
that it leaves unchanged, and its memory fault. -/

namespace Sys2Proof.Machine

open Sys2Proof.Safety

/-! ### MemRead of each width as the bytes it joins -/

theorem memRead_byte (m : Memory) (a : Nat) : memRead m a (widthBytes .byte) = memGet m a :=
  BitVec.zero_width_append 0#0 (memGet m a)

theorem memRead_half (m : Memory) (a : Nat) : memRead m a (widthBytes .half) = memGet m (a + 1) ++ memGet m a :=
  congrArg (· ++ memGet m a) (memRead_byte m (a + 1))

theorem memRead_word (m : Memory) (a : Nat) :
    memRead m a (widthBytes .word) = memGet m (a + 3) ++ memGet m (a + 2) ++ memGet m (a + 1) ++ memGet m a :=
  congrArg (· ++ memGet m (a + 1) ++ memGet m a) (memRead_half m (a + 2))

/-! ### The shape of a load rule -/

/-- A load rule holds when its funct3 decodes to the instruction, the outcome is the load of its width, and extending the
number read gives the value of the bytes. -/
theorem loadRule_of {f3 : BitVec 3} {mk : Reg → Reg → BitVec 12 → Instr} {size : Width}
    {extend : BitVec (8 * widthBytes size) → Word} {value : (Nat → Byte) → Word}
    (decodes : ∀ w, funct3Of w = f3 → decodeLoad w = .instr (mk (rdOf w) (rs1Of w) (immIOf w)))
    (loads : ∀ s rd rs1 imm, effectOf s (mk rd rs1 imm) = effLoad s rd (effAddr s rs1 imm) size extend)
    (joins : ∀ m a, extend (memRead m a (widthBytes size)) = value fun k => memGet m (a + k)) :
    LoadRule f3 mk size (widthBytes size) value := by
  refine ⟨fun strict w ho hf3 => (decode_load ho strict).trans (decodes w hf3), ?inBounds, ?outOfBounds⟩
  case inBounds =>
    rintro s rd rs1 imm _ rfl hin
    refine ⟨_, exec_eq_commit _ s, ?_⟩
    rw [loads, ← joins]
    exact commit_effLoad_in hin rd extend
  case outOfBounds =>
    rintro s rd rs1 imm _ rfl hout
    refine ⟨_, exec_eq_commit _ s, ?_⟩
    rw [loads]
    exact commit_effLoad_out (Nat.not_le.2 hout) rd extend

/-! ### LB, LH, LW, LBU and LHU -/

/-- Settles O21, instruction by instruction with `loadRule_of`: the number read is the bytes joined, the lowest address
lowest, and the rule extends it as the instruction does; a word needs no extension. -/
theorem loadResults : Obligations.LoadResults := by
  unfold Obligations.LoadResults
  refine ⟨?lb, ?lh, ?lw, ?lbu, ?lhu⟩
  case lb =>
    refine loadRule_of (fun w hf3 => ?_) (fun s rd rs1 imm => rfl) fun m a => congrArg _ (memRead_byte m a)
    simp [decodeLoad, hf3]
  case lh =>
    refine loadRule_of (fun w hf3 => ?_) (fun s rd rs1 imm => rfl) fun m a => congrArg _ (memRead_half m a)
    simp [decodeLoad, hf3]
  case lw =>
    refine loadRule_of (fun w hf3 => ?_) (fun s rd rs1 imm => rfl) fun m a => ?_
    · simp [decodeLoad, hf3]
    · exact (BitVec.setWidth_eq _).trans (memRead_word m a)
  case lbu =>
    refine loadRule_of (fun w hf3 => ?_) (fun s rd rs1 imm => rfl) fun m a => congrArg _ (memRead_byte m a)
    simp [decodeLoad, hf3]
  case lhu =>
    refine loadRule_of (fun w hf3 => ?_) (fun s rd rs1 imm => rfl) fun m a => congrArg _ (memRead_half m a)
    simp [decodeLoad, hf3]

end Sys2Proof.Machine
end

section
/-! SUPPORT. The proofs of the statements about the stores (44_stores.md): the words of each instruction, the bytes written
with all that is left unchanged, and the memory fault. -/

namespace Sys2Proof.Machine

open Sys2Proof.Safety

/-! ### The shape of a store rule -/

/-- A store rule holds when its funct3 decodes to the instruction and the outcome is the store of its width. -/
theorem storeRule_of {f3 : BitVec 3} {mk : Reg → Reg → BitVec 12 → Instr} {size : Width}
    (decodes : ∀ w, funct3Of w = f3 → decodeStore w = .instr (mk (rs2Of w) (rs1Of w) (immSOf w)))
    (writes : ∀ s rs2 rs1 imm, effectOf s (mk rs2 rs1 imm) = effStore s (effAddr s rs1 imm) size (readReg s rs2)) :
    StoreRule f3 mk size (widthBytes size) := by
  refine ⟨fun strict w ho hf3 => (decode_store ho strict).trans (decodes w hf3), ?inBounds, ?outOfBounds⟩
  case inBounds =>
    rintro s rs2 rs1 imm _ rfl hin
    refine ⟨_, exec_eq_commit _ s, ?_⟩
    rw [writes]
    exact commit_effStore_in hin _
  case outOfBounds =>
    rintro s rs2 rs1 imm _ rfl hout
    refine ⟨_, exec_eq_commit _ s, ?_⟩
    rw [writes]
    exact commit_effStore_out (Nat.not_le.2 hout) _

/-! ### SB, SH and SW -/

/-- Settles O22, instruction by instruction with `storeRule_of`: each funct3 selects its instruction, whose outcome is the
store of x[rs2] in its own width. -/
theorem storeResults : Obligations.StoreResults := by
  unfold Obligations.StoreResults
  refine ⟨?sb, ?sh, ?sw⟩
  case sb =>
    refine storeRule_of (fun w hf3 => ?_) fun s rs2 rs1 imm => rfl
    simp [decodeStore, hf3]
  case sh =>
    refine storeRule_of (fun w hf3 => ?_) fun s rs2 rs1 imm => rfl
    simp [decodeStore, hf3]
  case sw =>
    refine storeRule_of (fun w hf3 => ?_) fun s rs2 rs1 imm => rfl
    simp [decodeStore, hf3]

end Sys2Proof.Machine
end

section
/-! SUPPORT. The proofs of the statements about the conditional branches (45_branches.md): the words of each instruction, and
its target with all that it leaves unchanged. -/

namespace Sys2Proof.Machine

open Sys2Proof.Safety

/-! ### The comparisons as conditions on numbers -/

theorem ltSigned_iff (a b : Word) : ltSigned a b = true ↔ a.toInt < b.toInt :=
  BitVec.slt_iff_toInt_lt

theorem ltUnsigned_iff (a b : Word) : ltUnsigned a b = true ↔ a.toNat < b.toNat :=
  decide_eq_true_iff

theorem not_ltSigned_iff (a b : Word) : (!ltSigned a b) = true ↔ a.toInt ≥ b.toInt := by
  rw [Bool.not_eq_true', ← Bool.not_eq_true, ltSigned_iff, ge_iff_le, not_lt]

theorem not_ltUnsigned_iff (a b : Word) : (!ltUnsigned a b) = true ↔ a.toNat ≥ b.toNat := by
  rw [Bool.not_eq_true', ← Bool.not_eq_true, ltUnsigned_iff, ge_iff_le, not_lt]

/-! ### The shape of a branch rule -/

/-- An instruction whose outcome is a branch completes, at the branch's target or at pc + 4, and changes nothing else. -/
theorem exec_retiresQuietly_of_effBranch {s : State} {i : Instr} {taken : Bool} {target : Word}
    (h : effectOf s i = effBranch taken target) :
    ∃ t, exec i s = .next t ∧ RetiresQuietly s t (if taken then target else s.pc + 4#32) [] :=
  ⟨_, exec_eq_commit i s, h ▸ commit_effBranch s taken target⟩

/-- A branch rule holds when its funct3 decodes to the instruction, the outcome is the branch on the test of the two
registers, and the test decides the rule's condition. -/
theorem branchRule_of {f3 : BitVec 3} {mk : Reg → Reg → BitVec 13 → Instr} {test : Word → Word → Bool}
    {cond : Word → Word → Prop}
    (decodes : ∀ w, funct3Of w = f3 → decodeBranch w = .instr (mk (rs1Of w) (rs2Of w) (immBOf w)))
    (branches : ∀ s rs1 rs2 off,
      effectOf s (mk rs1 rs2 off) = effBranch (test (readReg s rs1) (readReg s rs2)) (branchTarget s off))
    (decides : ∀ a b, test a b = true ↔ cond a b) :
    BranchRule f3 mk cond := by
  refine ⟨fun strict w ho hf3 => (decode_branch ho strict).trans (decodes w hf3), ?taken, ?notTaken⟩
  case taken =>
    intro s rs1 rs2 off hcond
    have retires := exec_retiresQuietly_of_effBranch (branches s rs1 rs2 off)
    rwa [if_pos ((decides _ _).2 hcond)] at retires
  case notTaken =>
    intro s rs1 rs2 off hcond
    have retires := exec_retiresQuietly_of_effBranch (branches s rs1 rs2 off)
    rwa [if_neg (mt (decides _ _).1 hcond)] at retires

/-! ### BEQ, BNE, BLT, BGE, BLTU and BGEU -/

/-- Settles O23, instruction by instruction with `branchRule_of`: BEQ and BNE test equality, BLT and BLTU compare the signed
and the unsigned numbers, and BGE and BGEU branch when that comparison fails. -/
theorem branchResults : Obligations.BranchResults := by
  unfold Obligations.BranchResults
  refine ⟨?beq, ?bne, ?blt, ?bge, ?bltu, ?bgeu⟩
  case beq =>
    refine branchRule_of (fun w hf3 => ?_) (fun s rs1 rs2 off => rfl) fun a b => beq_iff_eq
    simp [decodeBranch, hf3]
  case bne =>
    refine branchRule_of (fun w hf3 => ?_) (fun s rs1 rs2 off => rfl) fun a b => bne_iff_ne
    simp [decodeBranch, hf3]
  case blt =>
    refine branchRule_of (fun w hf3 => ?_) (fun s rs1 rs2 off => rfl) ltSigned_iff
    simp [decodeBranch, hf3]
  case bge =>
    refine branchRule_of (fun w hf3 => ?_) (fun s rs1 rs2 off => rfl) not_ltSigned_iff
    simp [decodeBranch, hf3]
  case bltu =>
    refine branchRule_of (fun w hf3 => ?_) (fun s rs1 rs2 off => rfl) ltUnsigned_iff
    simp [decodeBranch, hf3]
  case bgeu =>
    refine branchRule_of (fun w hf3 => ?_) (fun s rs1 rs2 off => rfl) not_ltUnsigned_iff
    simp [decodeBranch, hf3]

end Sys2Proof.Machine
end

section
/-! SUPPORT. The proof of the statement about LUI and AUIPC (46_upper_immediate.md): the words of each instruction, and its
result with all that it leaves unchanged. -/

namespace Sys2Proof.Machine

open Sys2Proof.Safety

/-! ### imm_U as a number -/

/-- The twelve zero bits below the field multiply it by 4096 (30_encoding.md R84), and the product fits in 32 bits. -/
theorem immU_toNat (imm20 : BitVec 20) : (immU imm20).toNat = imm20.toNat * 4096 := by
  rw [immU, BitVec.toNat_append, BitVec.toNat_ofNat, Nat.zero_mod, Nat.or_zero, Nat.shiftLeft_eq]

theorem immU_eq_ofNat_mul (imm20 : BitVec 20) : immU imm20 = BitVec.ofNat 32 (imm20.toNat * 4096) := by
  rw [← immU_toNat, BitVec.ofNat_toNat, BitVec.setWidth_eq]

/-! ### LUI and AUIPC -/

/-- Settles O24: each opcode alone selects its instruction, whose outcome is the write of imm_U, for AUIPC added to the pc
of the state it executes in. -/
theorem upperImmediateResults : Obligations.UpperImmediateResults := by
  unfold Obligations.UpperImmediateResults
  refine ⟨fun strict w ho => decode_lui ho strict, ?lui, fun strict w ho => decode_auipc ho strict, ?auipc⟩
  case lui =>
    refine fun s rd imm20 => exec_retires_of_effWrite ?_
    rw [effectOf, immU_eq_ofNat_mul]
  case auipc =>
    refine fun s rd imm20 => exec_retires_of_effWrite ?_
    rw [effectOf, BitVec.add_def, immU_toNat]

end Sys2Proof.Machine
end

section
/-! SUPPORT. The proof of the statement about the jumps (47_jumps.md): the words of JAL and JALR, their link, and their target
with all that they leave unchanged, under both values of JALR_LINK_FIRST. -/

namespace Sys2Proof.Machine

open Sys2Proof.Safety

/-! ### The shape of a jump -/

/-- An instruction whose outcome is a linked jump completes, at the jump's target, with the link written and nothing else
changed. -/
theorem exec_retires_of_effLink {s : State} {i : Instr} {rd : Reg} {link target : Word}
    (h : effectOf s i = effLink rd link target) :
    ∃ t, exec i s = .next t ∧ Retires s t rd link target :=
  ⟨_, exec_eq_commit i s, h ▸ commit_effLink s rd link target⟩

theorem exec_jalr_retires (s : State) (rd rs1 : Reg) (imm : BitVec 12) :
    ∃ t, exec (.jalr rd rs1 imm) s = .next t ∧ Retires s t rd (s.pc + 4#32) (jalrTarget s rd rs1 imm) :=
  exec_retires_of_effLink rfl

/-! ### JALR's base -/

/-- The base is the link exactly where JALR_LINK_FIRST writes it before the read: to the same register, other than x0
(47_jumps.md R170). -/
theorem readReg_jalrBaseState (s : State) (rd rs1 : Reg) :
    readReg (jalrBaseState s rd) rs1 =
      if s.cfg.jalrLinkFirst = true ∧ rs1 = rd ∧ rs1 ≠ 0#5 then linkValue s else readReg s rs1 := by
  by_cases linkFirst : s.cfg.jalrLinkFirst = true
  · simp only [jalrBaseState, linkFirst, if_true, true_and]
    exact readReg_writeReg s rd (linkValue s) rs1
  · rw [jalrBaseState, if_neg linkFirst, if_neg fun h => linkFirst h.1]

theorem jalrTarget_of_old_base {s : State} {rd rs1 : Reg}
    (h : s.cfg.jalrLinkFirst = false ∨ rd ≠ rs1 ∨ rd = 0#5) (imm : BitVec 12) :
    jalrTarget s rd rs1 imm = (readReg s rs1 + imm.signExtend 32) &&& 0xFFFFFFFE#32 := by
  have oldBase : ¬ (s.cfg.jalrLinkFirst = true ∧ rs1 = rd ∧ rs1 ≠ 0#5) := by
    rintro ⟨linkFirst, rfl, notZero⟩
    simp [linkFirst, notZero] at h
  rw [jalrTarget, readReg_jalrBaseState, if_neg oldBase, imm12]

theorem jalrTarget_of_link_base {s : State} {rd : Reg} (linkFirst : s.cfg.jalrLinkFirst = true) (notZero : rd ≠ 0#5)
    (imm : BitVec 12) :
    jalrTarget s rd rd imm = (s.pc + 4#32 + imm.signExtend 32) &&& 0xFFFFFFFE#32 := by
  rw [jalrTarget, readReg_jalrBaseState, if_pos ⟨linkFirst, rfl, notZero⟩, linkValue, imm12]

/-! ### JAL and JALR -/

/-- Settles O26: both outcomes are a linked jump; JALR's base is the link or the old register as `readReg_jalrBaseState`
says, and its words are told from BAD_FUNCT3 by funct3 alone. -/
theorem jumpsLinkAndGo : Obligations.JumpsLinkAndGo := by
  unfold Obligations.JumpsLinkAndGo
  refine ⟨fun strict w ho => decode_jal ho strict, ?jal, ?jalrWord, ?badFunct3, ?oldBase, ?linkBase⟩
  case jal => exact fun s rd off => exec_retires_of_effLink rfl
  case jalrWord => exact fun strict w ho hf3 => (decode_jalr ho strict).trans (if_pos hf3)
  case badFunct3 =>
    exact fun strict w ho hf3 => (decode_jalr ho strict).trans ((decodeJalr_eq_badFunct3_iff w).2 hf3)
  case oldBase =>
    intro s rd rs1 imm h
    rw [← jalrTarget_of_old_base h imm]
    exact exec_jalr_retires s rd rs1 imm
  case linkBase =>
    intro s rd imm linkFirst notZero
    rw [← jalrTarget_of_link_base linkFirst notZero imm]
    exact exec_jalr_retires s rd rd imm

end Sys2Proof.Machine
end

section
/-! SUPPORT. The six instruction formats (30_encoding.md R73): the fields of an encoded word are the operands it was encoded
from, and a word is the encoding of its own fields. The first half gives decode after encode. -/

namespace Sys2Proof

open Sys2Proof.Machine

/-! ### The fields of an encoded word -/

@[simp] theorem encodeR_fields (f7 : BitVec 7) (rs2 rs1 : Reg) (f3 : BitVec 3) (rd : Reg) (opc : BitVec 7) :
    opcodeOf (encodeR f7 rs2 rs1 f3 rd opc) = opc ∧ rdOf (encodeR f7 rs2 rs1 f3 rd opc) = rd ∧
      funct3Of (encodeR f7 rs2 rs1 f3 rd opc) = f3 ∧ rs1Of (encodeR f7 rs2 rs1 f3 rd opc) = rs1 ∧
      rs2Of (encodeR f7 rs2 rs1 f3 rd opc) = rs2 ∧ funct7Of (encodeR f7 rs2 rs1 f3 rd opc) = f7 := by
  simp (disch := decide) only [encodeR, opcodeOf, rdOf, funct3Of, rs1Of, rs2Of, funct7Of,
    BitVec.extractLsb'_append_eq_of_le, BitVec.extractLsb'_append_eq_of_add_le, BitVec.extractLsb'_eq_self,
    Nat.reduceSub, and_self]

theorem encodeShamt_eq_encodeR : encodeShamt = encodeR := rfl

theorem shamtOf_eq_rs2Of : shamtOf = rs2Of := rfl

@[simp] theorem encodeI_fields (imm : BitVec 12) (rs1 : Reg) (f3 : BitVec 3) (rd : Reg) (opc : BitVec 7) :
    opcodeOf (encodeI imm rs1 f3 rd opc) = opc ∧ rdOf (encodeI imm rs1 f3 rd opc) = rd ∧
      funct3Of (encodeI imm rs1 f3 rd opc) = f3 ∧ rs1Of (encodeI imm rs1 f3 rd opc) = rs1 ∧
      immIOf (encodeI imm rs1 f3 rd opc) = imm := by
  simp (disch := decide) only [encodeI, opcodeOf, rdOf, funct3Of, rs1Of, immIOf,
    BitVec.extractLsb'_append_eq_of_le, BitVec.extractLsb'_append_eq_of_add_le, BitVec.extractLsb'_eq_self,
    Nat.reduceSub, and_self]

@[simp] theorem encodeS_fields (imm : BitVec 12) (rs2 rs1 : Reg) (f3 : BitVec 3) (opc : BitVec 7) :
    opcodeOf (encodeS imm rs2 rs1 f3 opc) = opc ∧ funct3Of (encodeS imm rs2 rs1 f3 opc) = f3 ∧
      rs1Of (encodeS imm rs2 rs1 f3 opc) = rs1 ∧ rs2Of (encodeS imm rs2 rs1 f3 opc) = rs2 ∧
      immSOf (encodeS imm rs2 rs1 f3 opc) = imm := by
  have joined : imm.extractLsb' 5 7 ++ imm.extractLsb' 0 5 = imm := BitVec.extractLsb'_append_extractLsb'
  simp (disch := decide) only [encodeS, opcodeOf, funct3Of, rs1Of, rs2Of, immSOf,
    BitVec.extractLsb'_append_eq_of_le, BitVec.extractLsb'_append_eq_of_add_le, BitVec.extractLsb'_eq_self,
    Nat.reduceSub, joined, and_self]

@[simp] theorem encodeU_fields (imm20 : BitVec 20) (rd : Reg) (opc : BitVec 7) :
    opcodeOf (encodeU imm20 rd opc) = opc ∧ rdOf (encodeU imm20 rd opc) = rd ∧
      immUOf (encodeU imm20 rd opc) = imm20 := by
  simp (disch := decide) only [encodeU, opcodeOf, rdOf, immUOf,
    BitVec.extractLsb'_append_eq_of_le, BitVec.extractLsb'_append_eq_of_add_le, BitVec.extractLsb'_eq_self,
    Nat.reduceSub, and_self]

/-- An even offset is its other bits and the literal 0 of R83 and R85. -/
theorem extractLsb'_append_zero_of_even {n : Nat} {off : BitVec (n + 1)} (h : EvenOffset off) :
    off.extractLsb' 1 n ++ 0#1 = off := by
  have bit0 : off.extractLsb' 0 1 = 0#1 := BitVec.eq_of_getLsbD_eq fun i hi => by
    obtain rfl : i = 0 := by omega
    rw [BitVec.getLsbD_extractLsb', h]
    rfl
  rw [← bit0]
  exact BitVec.extractLsb'_append_extractLsb'

@[simp] theorem encodeB_fields (off : BitVec 13) (rs2 rs1 : Reg) (f3 : BitVec 3) (opc : BitVec 7) :
    opcodeOf (encodeB off rs2 rs1 f3 opc) = opc ∧ funct3Of (encodeB off rs2 rs1 f3 opc) = f3 ∧
      rs1Of (encodeB off rs2 rs1 f3 opc) = rs1 ∧ rs2Of (encodeB off rs2 rs1 f3 opc) = rs2 ∧
      immBOf (encodeB off rs2 rs1 f3 opc) = off.extractLsb' 1 12 ++ 0#1 := by
  simp (disch := decide) only [encodeB, opcodeOf, funct3Of, rs1Of, rs2Of, immBOf,
    BitVec.extractLsb'_append_eq_of_le, BitVec.extractLsb'_append_eq_of_add_le, BitVec.extractLsb'_eq_self,
    BitVec.extractLsb'_append_extractLsb'_eq_extractLsb', Nat.reduceSub, and_self]

@[simp] theorem encodeJ_fields (off : BitVec 21) (rd : Reg) (opc : BitVec 7) :
    opcodeOf (encodeJ off rd opc) = opc ∧ rdOf (encodeJ off rd opc) = rd ∧
      immJOf (encodeJ off rd opc) = off.extractLsb' 1 20 ++ 0#1 := by
  simp (disch := decide) only [encodeJ, opcodeOf, rdOf, immJOf,
    BitVec.extractLsb'_append_eq_of_le, BitVec.extractLsb'_append_eq_of_add_le, BitVec.extractLsb'_eq_self,
    BitVec.extractLsb'_append_extractLsb'_eq_extractLsb', Nat.reduceSub, and_self]

/-! ### Decode after encode -/

/-- Settles O8, family by family: the fields of the encoded word pick the instruction's own branch of the decoder and give
its operands back, funct7 is the one STRICT_DECODE asks for, and an even offset is its encoded bits and a zero. -/
theorem decodeOfEncodeIsTheInstruction : Obligations.DecodeOfEncodeIsTheInstruction := by
  unfold Obligations.DecodeOfEncodeIsTheInstruction
  intro strict i hwf
  cases i with
  | addi | slti | sltiu | xori | ori | andi => simp [encode, decode_opImm, decodeOpImm]
  | slli | srli | srai =>
    simp [encode, encodeShamt_eq_encodeR, decode_opImm, decodeOpImm, needFunct7_ok, b30Of_eq_getLsbD, shamtOf_eq_rs2Of]
  | add | sub | sll | slt | sltu | xor | srl | sra | or | and =>
    simp [encode, decode_op, decodeOp, needFunct7_ok, b30Of_eq_getLsbD]
  | lb | lh | lw | lbu | lhu => simp [encode, decode_load, decodeLoad]
  | sb | sh | sw => simp [encode, decode_store, decodeStore]
  | beq rs1 rs2 off | bne rs1 rs2 off | blt rs1 rs2 off | bge rs1 rs2 off | bltu rs1 rs2 off | bgeu rs1 rs2 off =>
    have even : EvenOffset off := of_decide_eq_true hwf
    simp [encode, decode_branch, decodeBranch, extractLsb'_append_zero_of_even even]
  | lui => simp [encode, decode_lui]
  | auipc => simp [encode, decode_auipc]
  | jal rd off =>
    have even : EvenOffset off := of_decide_eq_true hwf
    simp [encode, decode_jal, extractLsb'_append_zero_of_even even]
  | jalr => simp [encode, decode_jalr, decodeJalr]
  | ecall => cases strict <;> rfl

/-! ### A word is the encoding of its own fields -/

theorem encodeR_of_fields {w : Word} {f7 : BitVec 7} {f3 : BitVec 3} {opc : BitVec 7} (ho : opcodeOf w = opc)
    (h3 : funct3Of w = f3) (h7 : funct7Of w = f7) : encodeR f7 (rs2Of w) (rs1Of w) f3 (rdOf w) opc = w := by
  subst ho h3 h7
  simp (disch := decide) only [encodeR, opcodeOf, rdOf, funct3Of, rs1Of, rs2Of, funct7Of,
    BitVec.extractLsb'_append_extractLsb'_eq_extractLsb', BitVec.extractLsb'_eq_self]

theorem encodeI_of_fields {w : Word} {f3 : BitVec 3} {opc : BitVec 7} (ho : opcodeOf w = opc)
    (h3 : funct3Of w = f3) : encodeI (immIOf w) (rs1Of w) f3 (rdOf w) opc = w := by
  subst ho h3
  simp (disch := decide) only [encodeI, opcodeOf, rdOf, funct3Of, rs1Of, immIOf,
    BitVec.extractLsb'_append_extractLsb'_eq_extractLsb', BitVec.extractLsb'_eq_self]

theorem encodeS_of_fields {w : Word} {f3 : BitVec 3} {opc : BitVec 7} (ho : opcodeOf w = opc)
    (h3 : funct3Of w = f3) : encodeS (immSOf w) (rs2Of w) (rs1Of w) f3 opc = w := by
  subst ho h3
  simp (disch := decide) only [encodeS, opcodeOf, funct3Of, rs1Of, rs2Of, immSOf,
    BitVec.extractLsb'_append_eq_of_le, BitVec.extractLsb'_append_eq_of_add_le, BitVec.extractLsb'_eq_self,
    Nat.reduceSub, BitVec.extractLsb'_append_extractLsb'_eq_extractLsb']

theorem encodeB_of_fields {w : Word} {f3 : BitVec 3} {opc : BitVec 7} (ho : opcodeOf w = opc)
    (h3 : funct3Of w = f3) : encodeB (immBOf w) (rs2Of w) (rs1Of w) f3 opc = w := by
  subst ho h3
  simp (disch := decide) only [encodeB, opcodeOf, funct3Of, rs1Of, rs2Of, immBOf,
    BitVec.extractLsb'_append_eq_of_le, BitVec.extractLsb'_append_eq_of_add_le, BitVec.extractLsb'_eq_self,
    Nat.reduceSub, BitVec.extractLsb'_append_extractLsb'_eq_extractLsb']

theorem encodeU_of_fields {w : Word} {opc : BitVec 7} (ho : opcodeOf w = opc) :
    encodeU (immUOf w) (rdOf w) opc = w := by
  subst ho
  simp (disch := decide) only [encodeU, opcodeOf, rdOf, immUOf,
    BitVec.extractLsb'_append_extractLsb'_eq_extractLsb', BitVec.extractLsb'_eq_self]

theorem encodeJ_of_fields {w : Word} {opc : BitVec 7} (ho : opcodeOf w = opc) :
    encodeJ (immJOf w) (rdOf w) opc = w := by
  subst ho
  simp (disch := decide) only [encodeJ, opcodeOf, rdOf, immJOf,
    BitVec.extractLsb'_append_eq_of_le, BitVec.extractLsb'_append_eq_of_add_le, BitVec.extractLsb'_eq_self,
    Nat.reduceSub, BitVec.extractLsb'_append_extractLsb'_eq_extractLsb']

end Sys2Proof
end

section
/-! SUPPORT. The rows of the opcode table (30_encoding.md R99, R100) by the fields their masks examine, so that matching a
row is a statement about opcode, funct3, inst[30] and funct7. -/

namespace Sys2Proof

/-! ### A mask compares fields -/

/-- Two words are equal when all their fields are. -/
theorem word_eq_iff_fields (w v : Word) :
    w = v ↔ opcodeOf w = opcodeOf v ∧ rdOf w = rdOf v ∧ funct3Of w = funct3Of v ∧ rs1Of w = rs1Of v ∧
      rs2Of w = rs2Of v ∧ funct7Of w = funct7Of v := by
  refine ⟨fun h => by simp only [h, and_self], fun ⟨ho, hrd, h3, hrs1, hrs2, h7⟩ => ?_⟩
  rw [← encodeR_of_fields (w := w) ho h3 h7, hrd, hrs1, hrs2, encodeR_of_fields rfl rfl rfl]

/-- A mask acts on each field by itself. -/
theorem and_fields (w v : Word) :
    opcodeOf (w &&& v) = opcodeOf w &&& opcodeOf v ∧ rdOf (w &&& v) = rdOf w &&& rdOf v ∧
      funct3Of (w &&& v) = funct3Of w &&& funct3Of v ∧ rs1Of (w &&& v) = rs1Of w &&& rs1Of v ∧
      rs2Of (w &&& v) = rs2Of w &&& rs2Of v ∧ funct7Of (w &&& v) = funct7Of w &&& funct7Of v := by
  refine ⟨?_, ?_, ?_, ?_, ?_, ?_⟩ <;> exact BitVec.extractLsb'_and

/-- A mask over opcode, funct3 and funct7 compares those fields and no other. -/
theorem and_encodeR_eq_iff (w : Word) (m7 f7 : BitVec 7) (m3 f3 : BitVec 3) (mo opc : BitVec 7) :
    w &&& encodeR m7 0#5 0#5 m3 0#5 mo = encodeR f7 0#5 0#5 f3 0#5 opc ↔
      opcodeOf w &&& mo = opc ∧ funct3Of w &&& m3 = f3 ∧ funct7Of w &&& m7 = f7 := by
  simp [word_eq_iff_fields, and_fields]

/-! ### The shapes of a row -/

/-- The word with the given opcode, funct3 and funct7 and every other bit 0: what the match and mask columns hold. -/
def fixedBits (f7 : BitVec 7) (f3 : BitVec 3) (opc : BitVec 7) : Word := encodeR f7 0#5 0#5 f3 0#5 opc

/-- A row told apart by its opcode alone. -/
def rowByOpcode (name : String) (opc : BitVec 7) : OpcodeRow :=
  ⟨name, fixedBits 0#7 0#3 opc, 0x0000007F#32, fixedBits 0#7 0#3 opc, 0x0000007F#32⟩

/-- A row told apart by opcode and funct3. -/
def rowByFunct3 (name : String) (f3 : BitVec 3) (opc : BitVec 7) : OpcodeRow :=
  ⟨name, fixedBits 0#7 f3 opc, 0x0000707F#32, fixedBits 0#7 f3 opc, 0x0000707F#32⟩

/-- A row told apart by opcode and funct3, for which STRICT_DECODE asks for funct7 0x00. -/
def rowByFunct7 (name : String) (f3 : BitVec 3) (opc : BitVec 7) : OpcodeRow :=
  ⟨name, fixedBits 0#7 f3 opc, 0x0000707F#32, fixedBits 0#7 f3 opc, 0xFE00707F#32⟩

/-- A row told apart by opcode, funct3 and inst[30], for which STRICT_DECODE asks for the whole funct7. -/
def rowByBit30 (name : String) (f7 : BitVec 7) (f3 : BitVec 3) (opc : BitVec 7) : OpcodeRow :=
  ⟨name, fixedBits f7 f3 opc, 0x4000707F#32, fixedBits f7 f3 opc, 0xFE00707F#32⟩

/-! ### Which words match a row of each shape -/

/-- The masks are fields of ones: inst[6:0], inst[14:12], inst[30] and inst[31:25]. -/
theorem masks_eq :
    0x0000007F#32 = encodeR 0x00#7 0#5 0#5 0#3 0#5 0x7F#7 ∧ 0x0000707F#32 = encodeR 0x00#7 0#5 0#5 7#3 0#5 0x7F#7 ∧
      0x4000707F#32 = encodeR 0x20#7 0#5 0#5 7#3 0#5 0x7F#7 ∧ 0xFE00707F#32 = encodeR 0x7F#7 0#5 0#5 7#3 0#5 0x7F#7 := by
  decide

/-- A mask of ones keeps the whole field. -/
theorem and_ones : (∀ x : BitVec 7, x &&& 0x7F#7 = x) ∧ ∀ x : BitVec 3, x &&& 7#3 = x :=
  ⟨fun _ => BitVec.and_allOnes, fun _ => BitVec.and_allOnes⟩

/-- A mask of one bit compares that bit. -/
theorem and_0x20_eq_iff {f7 : BitVec 7} (h : f7 = 0x00#7 ∨ f7 = 0x20#7) (x : BitVec 7) :
    x &&& 0x20#7 = f7 ↔ x.getLsbD 5 = f7.getLsbD 5 := by
  rcases h with rfl | rfl <;> revert x <;> decide

@[simp] theorem rowMatches_rowByOpcode (strict : Bool) (name : String) (opc : BitVec 7) (w : Word) :
    rowMatches strict (rowByOpcode name opc) w = true ↔ opcodeOf w = opc := by
  cases strict <;> simp [rowMatches, rowByOpcode, fixedBits, masks_eq, and_encodeR_eq_iff, and_ones]

@[simp] theorem rowMatches_rowByFunct3 (strict : Bool) (name : String) (f3 : BitVec 3) (opc : BitVec 7) (w : Word) :
    rowMatches strict (rowByFunct3 name f3 opc) w = true ↔ opcodeOf w = opc ∧ funct3Of w = f3 := by
  cases strict <;> simp [rowMatches, rowByFunct3, fixedBits, masks_eq, and_encodeR_eq_iff, and_ones]

@[simp] theorem rowMatches_rowByFunct7 (strict : Bool) (name : String) (f3 : BitVec 3) (opc : BitVec 7) (w : Word) :
    rowMatches strict (rowByFunct7 name f3 opc) w = true ↔
      opcodeOf w = opc ∧ funct3Of w = f3 ∧ (strict = true → funct7Of w = 0x00#7) := by
  cases strict <;> simp [rowMatches, rowByFunct7, fixedBits, masks_eq, and_encodeR_eq_iff, and_ones]

theorem rowMatches_rowByBit30 {f7 : BitVec 7} (h : f7 = 0x00#7 ∨ f7 = 0x20#7) (strict : Bool) (name : String)
    (f3 : BitVec 3) (opc : BitVec 7) (w : Word) :
    rowMatches strict (rowByBit30 name f7 f3 opc) w = true ↔
      opcodeOf w = opc ∧ funct3Of w = f3 ∧ b30Of w = f7.getLsbD 5 ∧ (strict = true → funct7Of w = f7) := by
  have bit30 : funct7Of w = f7 → b30Of w = f7.getLsbD 5 := fun h7 => by rw [b30Of_eq_getLsbD, h7]
  cases strict with
  | false =>
    simp only [rowMatches, rowByBit30, fixedBits, masks_eq, Bool.false_eq_true, if_false, beq_iff_eq, and_encodeR_eq_iff,
      and_ones, and_0x20_eq_iff h, b30Of_eq_getLsbD, false_implies, and_true]
  | true =>
    simp only [rowMatches, rowByBit30, fixedBits, masks_eq, if_true, beq_iff_eq, and_encodeR_eq_iff, and_ones,
      true_implies, and_iff_right_of_imp bit30]

/-- The row of ECALL, told apart by its opcode, under STRICT_DECODE by the whole word. -/
def ecallRow : OpcodeRow := ⟨"ECALL", 0x00000073#32, 0x0000007F#32, 0x00000073#32, 0xFFFFFFFF#32⟩

@[simp] theorem rowMatches_ecallRow (strict : Bool) (w : Word) :
    rowMatches strict ecallRow w = true ↔ opcodeOf w = opcSystem ∧ (strict = true → w = 0x00000073#32) := by
  cases strict with
  | false => exact (rowMatches_rowByOpcode false "ECALL" opcSystem w).trans (by simp)
  | true =>
    have opcode : w = 0x00000073#32 → opcodeOf w = opcSystem := fun h => h ▸ rfl
    have ones : w &&& 0xFFFFFFFF#32 = w := BitVec.and_allOnes
    simp only [rowMatches, ecallRow, if_true, ones, beq_iff_eq, true_implies, and_iff_right_of_imp opcode]

/-! ### The table by shapes -/

theorem opImmRows_eq : opImmRows = [
    rowByFunct3 "ADDI" 0#3 opcOpImm, rowByFunct3 "SLTI" 2#3 opcOpImm, rowByFunct3 "SLTIU" 3#3 opcOpImm,
    rowByFunct3 "XORI" 4#3 opcOpImm, rowByFunct3 "ORI" 6#3 opcOpImm, rowByFunct3 "ANDI" 7#3 opcOpImm,
    rowByFunct7 "SLLI" 1#3 opcOpImm, rowByBit30 "SRLI" 0x00#7 5#3 opcOpImm,
    rowByBit30 "SRAI" 0x20#7 5#3 opcOpImm] := rfl

theorem opRows_eq : opRows = [
    rowByBit30 "ADD" 0x00#7 0#3 opcOp, rowByBit30 "SUB" 0x20#7 0#3 opcOp, rowByFunct7 "SLL" 1#3 opcOp,
    rowByFunct7 "SLT" 2#3 opcOp, rowByFunct7 "SLTU" 3#3 opcOp, rowByFunct7 "XOR" 4#3 opcOp,
    rowByBit30 "SRL" 0x00#7 5#3 opcOp, rowByBit30 "SRA" 0x20#7 5#3 opcOp, rowByFunct7 "OR" 6#3 opcOp,
    rowByFunct7 "AND" 7#3 opcOp] := rfl

theorem memoryRows_eq : memoryRows = [
    rowByFunct3 "LB" 0#3 opcLoad, rowByFunct3 "LH" 1#3 opcLoad, rowByFunct3 "LW" 2#3 opcLoad,
    rowByFunct3 "LBU" 4#3 opcLoad, rowByFunct3 "LHU" 5#3 opcLoad, rowByFunct3 "SB" 0#3 opcStore,
    rowByFunct3 "SH" 1#3 opcStore, rowByFunct3 "SW" 2#3 opcStore] := rfl

theorem controlRows_eq : controlRows = [
    rowByFunct3 "BEQ" 0#3 opcBranch, rowByFunct3 "BNE" 1#3 opcBranch, rowByFunct3 "BLT" 4#3 opcBranch,
    rowByFunct3 "BGE" 5#3 opcBranch, rowByFunct3 "BLTU" 6#3 opcBranch, rowByFunct3 "BGEU" 7#3 opcBranch,
    rowByOpcode "LUI" opcLui, rowByOpcode "AUIPC" opcAuipc, rowByOpcode "JAL" opcJal,
    rowByFunct3 "JALR" 0#3 opcJalr, ecallRow] := rfl

end Sys2Proof
end

section
/-! SUPPORT. What a word that matches a row of the opcode table decodes to, from the rule of the row's instruction; before
that, the two rules still missing: SLTIU (41_op_imm.md R119) and the system words (48_system.md R174). -/

namespace Sys2Proof

open Sys2Proof.Machine Sys2Proof.Safety

/-! ### SLTIU -/

/-- A word's unsigned number is its signed one, 2^32 higher where that is negative. -/
theorem toNat_eq_ite_toInt (a : Word) : (a.toNat : Int) = if a.toInt < 0 then a.toInt + 2 ^ 32 else a.toInt := by
  rw [BitVec.toInt_eq_toNat_cond]
  omega

/-- Settles O16: SLTIU compares unsigned numbers, and that of the sign-extended immediate is read off its signed one. -/
theorem sltiuSignExtendsThenComparesUnsigned : Obligations.SltiuSignExtendsThenComparesUnsigned := by
  unfold Obligations.SltiuSignExtendsThenComparesUnsigned
  refine opImmRule_of (fun strict w hf3 => ?_) fun s rd rs1 imm => ?_
  · simp [decodeOpImm, hf3]
  · rw [effectOf, boolWord_ltUnsigned, ← imm12_toInt, ← toNat_eq_ite_toInt]
    simp only [Nat.cast_lt]

/-! ### ECALL -/

/-- Settles O27: opcode 0x73 selects `decodeSystem`, which examines the word under STRICT_DECODE only. -/
theorem systemWordsAreEcall : Obligations.SystemWordsAreEcall := by
  unfold Obligations.SystemWordsAreEcall
  intro w ho
  have decodes : ∀ strict, decode strict w = decodeSystem strict w := decode_system ho
  refine ⟨(decodes false).trans (decodeSystem_false w), ?_, fun hw => (decodes true).trans ?_⟩
  · rintro rfl
    rfl
  · exact (decodeSystem_eq_badFunct7_iff true w).2 ⟨rfl, hw⟩

/-! ### A matching word is read as the row's instruction -/

/-- The word decodes to an instruction of the row, and under STRICT_DECODE it is that instruction's encoding. -/
def ReadsRow (strict : Bool) (w : Word) (row : OpcodeRow) : Prop :=
  ∃ i, decode strict w = .instr i ∧ i.mnemonic = row.mnemonic ∧ (strict = true → encode i = w)

/-! ### The rows one by one -/

theorem reads_opImmRows (strict : Bool) (w : Word) :
    ∀ row ∈ opImmRows, rowMatches strict row w = true → ReadsRow strict w row := by
  obtain ⟨⟨addi, -⟩, ⟨slti, -⟩, ⟨xori, -⟩, ⟨ori, -⟩, ⟨andi, -⟩⟩ := registerImmediateResults
  obtain ⟨sltiu, -⟩ := sltiuSignExtendsThenComparesUnsigned
  obtain ⟨⟨slli, -⟩, ⟨srli, -⟩, ⟨srai, -⟩⟩ := immediateShiftResults
  rw [opImmRows_eq]
  simp only [List.forall_mem_cons, rowMatches_rowByFunct3, rowMatches_rowByFunct7, rowMatches_rowByBit30 (.inl rfl),
    rowMatches_rowByBit30 (.inr rfl)]
  refine ⟨?_, ?_, ?_, ?_, ?_, ?_, ?_, ?_, ?_, nofun⟩
  · exact fun ⟨ho, h3⟩ => ⟨_, addi strict w ho h3, rfl, fun _ => encodeI_of_fields ho h3⟩
  · exact fun ⟨ho, h3⟩ => ⟨_, slti strict w ho h3, rfl, fun _ => encodeI_of_fields ho h3⟩
  · exact fun ⟨ho, h3⟩ => ⟨_, sltiu strict w ho h3, rfl, fun _ => encodeI_of_fields ho h3⟩
  · exact fun ⟨ho, h3⟩ => ⟨_, xori strict w ho h3, rfl, fun _ => encodeI_of_fields ho h3⟩
  · exact fun ⟨ho, h3⟩ => ⟨_, ori strict w ho h3, rfl, fun _ => encodeI_of_fields ho h3⟩
  · exact fun ⟨ho, h3⟩ => ⟨_, andi strict w ho h3, rfl, fun _ => encodeI_of_fields ho h3⟩
  · exact fun ⟨ho, h3, h7⟩ => ⟨_, slli strict w ho h3 trivial h7, rfl, fun hs => encodeR_of_fields ho h3 (h7 hs)⟩
  · exact fun ⟨ho, h3, h30, h7⟩ => ⟨_, srli strict w ho h3 h30 h7, rfl, fun hs => encodeR_of_fields ho h3 (h7 hs)⟩
  · exact fun ⟨ho, h3, h30, h7⟩ => ⟨_, srai strict w ho h3 h30 h7, rfl, fun hs => encodeR_of_fields ho h3 (h7 hs)⟩

theorem reads_opRows (strict : Bool) (w : Word) :
    ∀ row ∈ opRows, rowMatches strict row w = true → ReadsRow strict w row := by
  obtain ⟨⟨add, -⟩, ⟨sub, -⟩, ⟨slt, -⟩, ⟨sltu, -⟩⟩ := registerArithmeticResults
  obtain ⟨⟨xor, -⟩, ⟨or, -⟩, ⟨and, -⟩⟩ := registerLogicResults
  obtain ⟨⟨sll, -⟩, ⟨srl, -⟩, ⟨sra, -⟩⟩ := registerShiftResults
  rw [opRows_eq]
  simp only [List.forall_mem_cons, rowMatches_rowByFunct7, rowMatches_rowByBit30 (.inl rfl),
    rowMatches_rowByBit30 (.inr rfl)]
  refine ⟨?_, ?_, ?_, ?_, ?_, ?_, ?_, ?_, ?_, ?_, nofun⟩
  · exact fun ⟨ho, h3, h30, h7⟩ => ⟨_, add strict w ho h3 h30 h7, rfl, fun hs => encodeR_of_fields ho h3 (h7 hs)⟩
  · exact fun ⟨ho, h3, h30, h7⟩ => ⟨_, sub strict w ho h3 h30 h7, rfl, fun hs => encodeR_of_fields ho h3 (h7 hs)⟩
  · exact fun ⟨ho, h3, h7⟩ => ⟨_, sll strict w ho h3 trivial h7, rfl, fun hs => encodeR_of_fields ho h3 (h7 hs)⟩
  · exact fun ⟨ho, h3, h7⟩ => ⟨_, slt strict w ho h3 trivial h7, rfl, fun hs => encodeR_of_fields ho h3 (h7 hs)⟩
  · exact fun ⟨ho, h3, h7⟩ => ⟨_, sltu strict w ho h3 trivial h7, rfl, fun hs => encodeR_of_fields ho h3 (h7 hs)⟩
  · exact fun ⟨ho, h3, h7⟩ => ⟨_, xor strict w ho h3 trivial h7, rfl, fun hs => encodeR_of_fields ho h3 (h7 hs)⟩
  · exact fun ⟨ho, h3, h30, h7⟩ => ⟨_, srl strict w ho h3 h30 h7, rfl, fun hs => encodeR_of_fields ho h3 (h7 hs)⟩
  · exact fun ⟨ho, h3, h30, h7⟩ => ⟨_, sra strict w ho h3 h30 h7, rfl, fun hs => encodeR_of_fields ho h3 (h7 hs)⟩
  · exact fun ⟨ho, h3, h7⟩ => ⟨_, or strict w ho h3 trivial h7, rfl, fun hs => encodeR_of_fields ho h3 (h7 hs)⟩
  · exact fun ⟨ho, h3, h7⟩ => ⟨_, and strict w ho h3 trivial h7, rfl, fun hs => encodeR_of_fields ho h3 (h7 hs)⟩

theorem reads_memoryRows (strict : Bool) (w : Word) :
    ∀ row ∈ memoryRows, rowMatches strict row w = true → ReadsRow strict w row := by
  obtain ⟨⟨lb, -⟩, ⟨lh, -⟩, ⟨lw, -⟩, ⟨lbu, -⟩, ⟨lhu, -⟩⟩ := loadResults
  obtain ⟨⟨sb, -⟩, ⟨sh, -⟩, ⟨sw, -⟩⟩ := storeResults
  rw [memoryRows_eq]
  simp only [List.forall_mem_cons, rowMatches_rowByFunct3]
  refine ⟨?_, ?_, ?_, ?_, ?_, ?_, ?_, ?_, nofun⟩
  · exact fun ⟨ho, h3⟩ => ⟨_, lb strict w ho h3, rfl, fun _ => encodeI_of_fields ho h3⟩
  · exact fun ⟨ho, h3⟩ => ⟨_, lh strict w ho h3, rfl, fun _ => encodeI_of_fields ho h3⟩
  · exact fun ⟨ho, h3⟩ => ⟨_, lw strict w ho h3, rfl, fun _ => encodeI_of_fields ho h3⟩
  · exact fun ⟨ho, h3⟩ => ⟨_, lbu strict w ho h3, rfl, fun _ => encodeI_of_fields ho h3⟩
  · exact fun ⟨ho, h3⟩ => ⟨_, lhu strict w ho h3, rfl, fun _ => encodeI_of_fields ho h3⟩
  · exact fun ⟨ho, h3⟩ => ⟨_, sb strict w ho h3, rfl, fun _ => encodeS_of_fields ho h3⟩
  · exact fun ⟨ho, h3⟩ => ⟨_, sh strict w ho h3, rfl, fun _ => encodeS_of_fields ho h3⟩
  · exact fun ⟨ho, h3⟩ => ⟨_, sw strict w ho h3, rfl, fun _ => encodeS_of_fields ho h3⟩

theorem reads_ecallRow {strict : Bool} {w : Word} (ho : opcodeOf w = opcSystem)
    (hw : strict = true → w = 0x00000073#32) : ReadsRow strict w ecallRow := by
  obtain ⟨lax, strictly, -⟩ := systemWordsAreEcall w ho
  refine ⟨.ecall, ?_, rfl, fun hs => (hw hs).symm⟩
  cases strict with
  | false => exact lax
  | true => exact strictly (hw rfl)

theorem reads_controlRows (strict : Bool) (w : Word) :
    ∀ row ∈ controlRows, rowMatches strict row w = true → ReadsRow strict w row := by
  obtain ⟨⟨beq, -⟩, ⟨bne, -⟩, ⟨blt, -⟩, ⟨bge, -⟩, ⟨bltu, -⟩, ⟨bgeu, -⟩⟩ := branchResults
  obtain ⟨jal, -, jalr, -⟩ := jumpsLinkAndGo
  rw [controlRows_eq]
  simp only [List.forall_mem_cons, rowMatches_rowByFunct3, rowMatches_rowByOpcode, rowMatches_ecallRow]
  refine ⟨?_, ?_, ?_, ?_, ?_, ?_, ?_, ?_, ?_, ?_, ?_, nofun⟩
  · exact fun ⟨ho, h3⟩ => ⟨_, beq strict w ho h3, rfl, fun _ => encodeB_of_fields ho h3⟩
  · exact fun ⟨ho, h3⟩ => ⟨_, bne strict w ho h3, rfl, fun _ => encodeB_of_fields ho h3⟩
  · exact fun ⟨ho, h3⟩ => ⟨_, blt strict w ho h3, rfl, fun _ => encodeB_of_fields ho h3⟩
  · exact fun ⟨ho, h3⟩ => ⟨_, bge strict w ho h3, rfl, fun _ => encodeB_of_fields ho h3⟩
  · exact fun ⟨ho, h3⟩ => ⟨_, bltu strict w ho h3, rfl, fun _ => encodeB_of_fields ho h3⟩
  · exact fun ⟨ho, h3⟩ => ⟨_, bgeu strict w ho h3, rfl, fun _ => encodeB_of_fields ho h3⟩
  · exact fun ho => ⟨_, decode_lui ho strict, rfl, fun _ => encodeU_of_fields ho⟩
  · exact fun ho => ⟨_, decode_auipc ho strict, rfl, fun _ => encodeU_of_fields ho⟩
  · exact fun ho => ⟨_, decode_jal ho strict, rfl, fun _ => encodeJ_of_fields ho⟩
  · exact fun ⟨ho, h3⟩ => ⟨_, jalr strict w ho h3, rfl, fun _ => encodeI_of_fields ho h3⟩
  · exact fun ⟨ho, hw⟩ => reads_ecallRow ho hw

/-- A word that matches a row of the table is an instruction of that row. -/
theorem readsRow_of_rowMatches {strict : Bool} {w : Word} {row : OpcodeRow} (hrow : row ∈ opcodeTable)
    (h : rowMatches strict row w = true) : ReadsRow strict w row := by
  simp only [opcodeTable, List.mem_append] at hrow
  rcases hrow with ((hrow | hrow) | hrow) | hrow
  · exact reads_opImmRows strict w row hrow h
  · exact reads_opRows strict w row hrow h
  · exact reads_memoryRows strict w row hrow h
  · exact reads_controlRows strict w row hrow h

end Sys2Proof
end

section
/-! SUPPORT. The proofs of the statements about every word: a word under STRICT_DECODE is the encoding of what it decodes to,
and every word is zero, one row of the opcode table or a decode fault (30_encoding.md R90). -/

namespace Sys2Proof

/-! ### Every word that decodes to an instruction matches a row -/

/-- inst[30] picks the row of a pair, and under STRICT_DECODE the whole funct7 is that row's. -/
theorem exists_bit30_row {strict : Bool} {w : Word}
    (h : strict = true → funct7Of w = 0x00#7 ∨ funct7Of w = 0x20#7) :
    (b30Of w = false ∧ (strict = true → funct7Of w = 0x00#7)) ∨
      (b30Of w = true ∧ (strict = true → funct7Of w = 0x20#7)) := by
  cases h30 : b30Of w with
  | false =>
    have notSet : funct7Of w ≠ 0x20#7 := fun h7 => by simp [b30Of_eq_getLsbD, h7] at h30
    exact .inl ⟨rfl, fun hs => (h hs).resolve_right notSet⟩
  | true =>
    have notClear : funct7Of w ≠ 0x00#7 := fun h7 => by simp [b30Of_eq_getLsbD, h7] at h30
    exact .inr ⟨rfl, fun hs => (h hs).resolve_left notClear⟩

theorem exists_opRow {strict : Bool} {w : Word} (ho : opcodeOf w = opcOp)
    (h : decodeOp strict w ≠ .fault .badFunct7) : ∃ row ∈ opRows, rowMatches strict row w = true := by
  simp only [Ne, decodeOp_eq_badFunct7_iff, not_and, not_forall] at h
  by_cases pair : funct3Of w = 0#3 ∨ funct3Of w = 5#3
  · have bit30 := exists_bit30_row (strict := strict) (w := w) fun hs => or_iff_not_imp_left.2 fun h7 => (h hs h7).1
    rcases pair with h3 | h3 <;> simpa [opRows_eq, ho, h3, rowMatches_rowByBit30] using bit30
  · have zero : strict = true → funct7Of w = 0x00#7 := fun hs => by tauto
    rcases funct3_cases (funct3Of w) with h3 | h3 | h3 | h3 | h3 | h3 | h3 | h3 <;>
      simp [opRows_eq, ho, h3, rowMatches_rowByBit30] at pair ⊢ <;> exact zero

theorem exists_opImmRow {strict : Bool} {w : Word} (ho : opcodeOf w = opcOpImm)
    (h : decodeOpImm strict w ≠ .fault .badFunct7) : ∃ row ∈ opImmRows, rowMatches strict row w = true := by
  rw [Ne, decodeOpImm_eq_badFunct7_iff] at h
  rcases funct3_cases (funct3Of w) with h3 | h3 | h3 | h3 | h3 | h3 | h3 | h3 <;>
    simp [opImmRows_eq, ho, h3, rowMatches_rowByBit30] at h ⊢
  · exact h
  · refine exists_bit30_row fun hs => ?_
    obtain ⟨clear, isSet⟩ := h hs
    cases h30 : b30Of w with
    | false => exact .inl (clear h30)
    | true => exact .inr (isSet h30)

theorem exists_memoryRow_of_load {strict : Bool} {w : Word} (ho : opcodeOf w = opcLoad)
    (h : decodeLoad w ≠ .fault .badFunct3) : ∃ row ∈ memoryRows, rowMatches strict row w = true := by
  rw [Ne, decodeLoad_eq_badFunct3_iff] at h
  rcases funct3_cases (funct3Of w) with h3 | h3 | h3 | h3 | h3 | h3 | h3 | h3 <;> simp [memoryRows_eq, ho, h3] at h ⊢

theorem exists_memoryRow_of_store {strict : Bool} {w : Word} (ho : opcodeOf w = opcStore)
    (h : decodeStore w ≠ .fault .badFunct3) : ∃ row ∈ memoryRows, rowMatches strict row w = true := by
  rw [Ne, decodeStore_eq_badFunct3_iff] at h
  rcases funct3_cases (funct3Of w) with h3 | h3 | h3 | h3 | h3 | h3 | h3 | h3 <;> simp [memoryRows_eq, ho, h3] at h ⊢

theorem exists_controlRow_of_branch {strict : Bool} {w : Word} (ho : opcodeOf w = opcBranch)
    (h : decodeBranch w ≠ .fault .badFunct3) : ∃ row ∈ controlRows, rowMatches strict row w = true := by
  rw [Ne, decodeBranch_eq_badFunct3_iff] at h
  rcases funct3_cases (funct3Of w) with h3 | h3 | h3 | h3 | h3 | h3 | h3 | h3 <;> simp [controlRows_eq, ho, h3] at h ⊢

/-- A word that decodes to an instruction matches a row: its opcode is one of the ten, and no fault of R79 or R80 takes
its funct3 or funct7 out of the table. -/
theorem exists_row_of_decode {strict : Bool} {w : Word} {i : Instr} (hd : decode strict w = .instr i) :
    ∃ row ∈ opcodeTable, rowMatches strict row w = true := by
  have noFault (k) : decode strict w ≠ .fault k := fun h => nomatch hd.symm.trans h
  have notZero : w ≠ 0#32 := fun h => nomatch hd.symm.trans ((decode_eq_zero_iff strict w).2 h)
  have known : KnownOpcode w := by
    by_contra h
    exact noFault _ (decode_unknown notZero h strict)
  simp only [opcodeTable, List.mem_append, or_and_right, exists_or]
  rcases known with ho | ho | ho | ho | ho | ho | ho | ho | ho | ho
  · exact .inl (.inl (.inl (exists_opImmRow ho (decode_opImm ho strict ▸ noFault _))))
  · exact .inl (.inl (.inr (exists_opRow ho (decode_op ho strict ▸ noFault _))))
  · exact .inl (.inr (exists_memoryRow_of_load ho (decode_load ho strict ▸ noFault _)))
  · exact .inl (.inr (exists_memoryRow_of_store ho (decode_store ho strict ▸ noFault _)))
  · exact .inr (exists_controlRow_of_branch ho (decode_branch ho strict ▸ noFault _))
  · exact .inr (by simp [controlRows_eq, ho])
  · exact .inr (by simp [controlRows_eq, ho])
  · exact .inr (by simp [controlRows_eq, ho])
  · have h3 : funct3Of w = 0#3 := by
      by_contra h3
      exact noFault _ ((decode_jalr ho strict).trans ((decodeJalr_eq_badFunct3_iff w).2 h3))
    exact .inr (by simp [controlRows_eq, ho, h3])
  · have hw : strict = true → w = 0x00000073#32 := fun hs => by
      by_contra h
      exact noFault _ ((decode_system ho strict).trans ((decodeSystem_eq_badFunct7_iff strict w).2 ⟨hs, h⟩))
    exact .inr ⟨ecallRow, by simp [controlRows_eq], (rowMatches_ecallRow strict w).2 ⟨ho, hw⟩⟩

/-! ### One encoding, one row -/

/-- Settles O9: the word matches a row of the table, and a word of a row is under STRICT_DECODE the encoding of what it
decodes to. -/
theorem strictDecodeReadsOnlyEncodings : Obligations.StrictDecodeReadsOnlyEncodings := by
  unfold Obligations.StrictDecodeReadsOnlyEncodings
  intro w i hd
  obtain ⟨row, hrow, hmatch⟩ := exists_row_of_decode hd
  obtain ⟨j, hj, -, encodes⟩ := readsRow_of_rowMatches hrow hmatch
  cases hd.symm.trans hj
  exact ⟨wellFormed_of_decode hd, encodes rfl⟩

/-- No two rows have the same mnemonic. -/
theorem opcodeTable_mnemonic_inj {row row' : OpcodeRow} (h : row ∈ opcodeTable) (h' : row' ∈ opcodeTable)
    (heq : row.mnemonic = row'.mnemonic) : row = row' :=
  List.inj_on_of_nodup_map (by decide : (opcodeTable.map OpcodeRow.mnemonic).Nodup) h h' heq

/-- A word that decodes to no instruction matches no row. -/
theorem rowMatches_eq_false_of_no_instr {strict : Bool} {w : Word} (h : ∀ i, decode strict w ≠ .instr i) :
    ∀ row ∈ opcodeTable, rowMatches strict row w = false := by
  intro row hrow
  by_contra hmatch
  obtain ⟨i, hd, -⟩ := readsRow_of_rowMatches hrow (Bool.of_not_eq_false hmatch)
  exact h i hd

/-- Settles O10: Zero and the decode faults are no instruction and match no row; a word that decodes to an instruction
matches a row, and every row it matches has the mnemonic of that instruction. -/
theorem everyWordFallsInOneClass : Obligations.EveryWordFallsInOneClass := by
  unfold Obligations.EveryWordFallsInOneClass
  intro strict w
  cases hd : decode strict w with
  | zero =>
    exact .inl ⟨(decode_eq_zero_iff strict w).1 hd, rfl, rowMatches_eq_false_of_no_instr (by simp [hd])⟩
  | instr i =>
    obtain ⟨row, hrow, hmatch⟩ := exists_row_of_decode hd
    have named : ∀ r ∈ opcodeTable, rowMatches strict r w = true → i.mnemonic = r.mnemonic := fun r hr h => by
      obtain ⟨j, hj, hname, -⟩ := readsRow_of_rowMatches hr h
      cases hd.symm.trans hj
      exact hname
    have unique : ∀ r ∈ opcodeTable, rowMatches strict r w = true ↔ r = row := fun r hr =>
      ⟨fun h => opcodeTable_mnemonic_inj hr hrow ((named r hr h).symm.trans (named row hrow hmatch)), fun h => h ▸ hmatch⟩
    have notZero : w ≠ 0#32 := fun h => nomatch hd.symm.trans ((decode_eq_zero_iff strict w).2 h)
    exact .inr (.inl ⟨notZero, i, rfl, wellFormed_of_decode hd, row, hrow, (named row hrow hmatch).symm, unique⟩)
  | fault k =>
    have notZero : w ≠ 0#32 := fun h => nomatch hd.symm.trans ((decode_eq_zero_iff strict w).2 h)
    exact .inr (.inr ⟨notZero, ⟨k, rfl⟩, rowMatches_eq_false_of_no_instr (by simp [hd])⟩)

/-! ### Written-out words -/

/-- Settles O14: each word is decoded by evaluation. -/
theorem writtenOutWordsDecode : Obligations.WrittenOutWordsDecode := by
  unfold Obligations.WrittenOutWordsDecode
  decide

end Sys2Proof
end

section
/-! SUPPORT. The proofs of the statements about ECALL (48_system.md): each service by its number, the string that service 4
reads, and the exit. -/

namespace Sys2Proof.Machine

open Sys2Proof.Safety

/-! ### The services by number -/

theorem effSyscall_of_one {s : State} (h : readReg s 17#5 = 1#32) :
    effSyscall s = { events := [.printInt (readReg s 10#5).toInt] } := by
  simp [effSyscall, syscallNumReg, syscallArgReg, h]

theorem effSyscall_of_four {s : State} (h : readReg s 17#5 = 4#32) :
    effSyscall s = { events := [.printStr (syscallString s)] } := by
  simp [effSyscall, syscallNumReg, h]

theorem effSyscall_of_ten {s : State} (h : readReg s 17#5 = 10#32) : effSyscall s = { exit := true } := by
  simp [effSyscall, syscallNumReg, h]

theorem effSyscall_of_unknown {s : State} (h1 : readReg s 17#5 ≠ 1#32) (h4 : readReg s 17#5 ≠ 4#32)
    (h10 : readReg s 17#5 ≠ 10#32) : effSyscall s = { events := [.unknownSyscall (readReg s 17#5)] } := by
  simp only [Ne, ← BitVec.toNat_inj] at h1 h4 h10
  rw [effSyscall, syscallNumReg]
  exact (if_neg h1).trans ((if_neg h4).trans (if_neg h10))

/-- A service that only emits goes on at pc + 4 and changes nothing else. -/
theorem exec_ecall_emits {s : State} {es : List Event} (h : effSyscall s = { events := es }) :
    ∃ t, exec .ecall s = .next t ∧ RetiresQuietly s t (s.pc + 4#32) es :=
  have outcome : effectOf s .ecall = { events := es } := h
  ⟨_, exec_eq_commit .ecall s, outcome ▸ commit_events_only s es⟩

/-- Settles O28: service 1 only emits. -/
theorem ecallServiceOnePrintsTheInteger : Obligations.EcallServiceOnePrintsTheInteger := by
  unfold Obligations.EcallServiceOnePrintsTheInteger
  exact fun s h => exec_ecall_emits (effSyscall_of_one h)

/-- Settles O31: a service with no number of its own only emits. -/
theorem ecallIgnoresUnknownServices : Obligations.EcallIgnoresUnknownServices := by
  unfold Obligations.EcallIgnoresUnknownServices
  intro s h
  simp only [List.mem_cons, List.not_mem_nil, or_false, not_or] at h
  obtain ⟨h1, h4, h10⟩ := h
  exact exec_ecall_emits (effSyscall_of_unknown h1 h4 h10)

/-! ### The string -/

theorem stringAt_nil {s : State} {a : Nat} (h : s.cfg.memCapacity < a + 1 ∨ memGet s.mem a = 0#8) : StringAt s a [] :=
  ⟨fun _ hk => absurd hk (Nat.not_lt_zero _), h⟩

/-- A byte that is in bounds and not zero goes before the string at the next address. -/
theorem stringAt_cons {s : State} {a : Nat} {bs : List Byte} (hin : a + 1 ≤ s.cfg.memCapacity)
    (hne : memGet s.mem a ≠ 0#8) (h : StringAt s (a + 1) bs) : StringAt s a (memGet s.mem a :: bs) := by
  obtain ⟨bytes, ends⟩ := h
  have shift (n : Nat) : a + 1 + n = a + (n + 1) := by omega
  refine ⟨fun k hk => ?_, ?_⟩
  · cases k with
    | zero => exact ⟨hin, rfl, hne⟩
    | succ k =>
      have next := bytes k (Nat.lt_of_succ_lt_succ hk)
      rwa [shift] at next
  · rwa [shift] at ends

/-- Read as long as the bytes from `a` to the capacity allow, the string is the one at `a`. -/
theorem stringAt_readString (s : State) (fuel a : Nat) (h : fuel = s.cfg.memCapacity - a) :
    StringAt s a (readString s.mem fuel a) := by
  induction fuel generalizing a with
  | zero => exact stringAt_nil (.inl (by omega))
  | succ fuel ih =>
    by_cases hbyte : memGet s.mem a = 0#8
    · rw [readString, if_pos hbyte]
      exact stringAt_nil (.inr hbyte)
    · rw [readString, if_neg hbyte]
      exact stringAt_cons (by omega) hbyte (ih (a + 1) (by omega))

theorem stringAt_syscallString (s : State) : StringAt s (readReg s 10#5).toNat (syscallString s) :=
  stringAt_readString s _ _ rfl

theorem ne_zero_of_mem_syscallString {s : State} {b : Byte} (h : b ∈ syscallString s) : b ≠ 0#8 := by
  obtain ⟨k, hk, rfl⟩ := List.getElem_of_mem h
  obtain ⟨-, -, hne⟩ := (stringAt_syscallString s).1 k hk
  exact hne

/-- Settles O29: service 4 only emits, and what it emits is `stringAt_syscallString`. -/
theorem ecallServiceFourPrintsTheString : Obligations.EcallServiceFourPrintsTheString := by
  unfold Obligations.EcallServiceFourPrintsTheString
  intro s h
  obtain ⟨t, hexec, ht⟩ := exec_ecall_emits (effSyscall_of_four h)
  exact ⟨t, _, hexec, ht, stringAt_syscallString s⟩

/-! ### The exit -/

/-- The exit commits pc + 4 and then halts (48_system.md R177). -/
theorem commit_exit (s : State) : commit s { exit := true } = halt (setPc s (s.pc + 4#32)) .haltExit [] := by
  simp [commit, commitReg, commitMem, emit, nextPc]

theorem exec_ecall_exits {s : State} (h : readReg s 17#5 = 10#32) :
    exec .ecall s = .next (halt (setPc s (s.pc + 4#32)) .haltExit []) := by
  rw [exec_eq_commit, effectOf, effSyscall_of_ten h, commit_exit]

/-- Settles O30: the step is the same exit of the counted state. -/
theorem ecallServiceTenExits : Obligations.EcallServiceTenExits := by
  unfold Obligations.EcallServiceTenExits
  refine fun s h => ⟨?ecall, fun ⟨w, hf, hd⟩ => ?theStep⟩
  case ecall =>
    exact ⟨_, exec_ecall_exits h, rfl, rfl, rfl, fun _ => rfl, ⟨rfl, rfl, rfl⟩, List.append_nil _⟩
  case theStep =>
    have hstep : step s = .next _ := (step_of_instr hf hd).trans (exec_ecall_exits (s := counted s) h)
    exact ⟨_, hstep, rfl, rfl, rfl, rfl, rfl, fun _ => rfl⟩

end Sys2Proof.Machine
end

section
/-! SUPPORT. Everything a step can leave (40_execution_cycle.md R101), as one relation between the state before it and the
state after it, from which the statements about steps are read off. -/

namespace Sys2Proof.Machine

open Sys2Proof.Safety

/-! ### An outcome reads registers, pc, memory and parameters only -/

/-- The state with another quiet flag, counter and event log: what no instruction reads. -/
def withUnread (s : State) (q : Bool) (n : Nat) (es : List Event) : State :=
  { s with quiet := q, icount := n, events := es }

/-- JALR's base is taken from the register file before or after the link is written, and neither reads those fields. -/
theorem jalrTarget_withUnread (s : State) (q : Bool) (n : Nat) (es : List Event) (rd rs1 : Reg) (imm : BitVec 12) :
    jalrTarget (withUnread s q n es) rd rs1 imm = jalrTarget s rd rs1 imm := by
  simp only [jalrTarget, readReg_jalrBaseState]
  rfl

theorem effectOf_withUnread (s : State) (q : Bool) (n : Nat) (es : List Event) (i : Instr) :
    effectOf (withUnread s q n es) i = effectOf s i := by
  cases i with
  | jalr rd rs1 imm => exact congrArg (effLink rd (linkValue s)) (jalrTarget_withUnread s q n es rd rs1 imm)
  | _ => rfl

theorem effectOf_countInstr (s : State) (i : Instr) : effectOf (countInstr s) i = effectOf s i :=
  effectOf_withUnread s s.quiet (s.icount + 1) s.events i

theorem emit_nil (s : State) : emit s [] = s := by rw [emit, List.append_nil]

/-- An access out of bounds has no outcome but its memory fault. -/
theorem effectOf_of_outOfBounds {s : State} {i : Instr} {ea : Word} {w : Width} {k : AccessKind}
    (ha : dataAccess s i = some (ea, w, k)) (hout : ¬ InBounds s ea.toNat (widthBytes w)) :
    effectOf s i = { fault := some ⟨ea, w, k⟩ } := by
  rcases effectOf_cases s i with ⟨_, _, _, -, -, inBounds⟩ | ⟨_, _, _, ha', -, he⟩ | ⟨_, _, _, ha', hin, -⟩ |
    ⟨_, _, -, ha', -⟩ | ⟨rfl, -⟩
  · exact absurd (inBounds ea w k ha).1 hout
  · cases ha.symm.trans ha'
    exact he
  · cases ha.symm.trans ha'
    exact absurd hin hout
  · cases ha.symm.trans ha'
  · cases ha

theorem effBranch_eq_target (b : Bool) (t : Word) : ∃ target, effBranch b t = { target := target } := by
  cases b with
  | false => exact ⟨.seq, rfl⟩
  | true => exact ⟨.jump t, rfl⟩

/-! ### The relation -/

/-- The state a step leaves, by what the step does. -/
inductive StepLeaves (s : State) : State → Prop
  | halted (hr : s.status ≠ .running) : StepLeaves s s
  | misaligned (hr : s.status = .running) (hm : StopsMisaligned s) : StepLeaves s (haltMisaligned s)
  | outOfBounds (hr : s.status = .running) (hm : ¬ StopsMisaligned s) (ho : FetchOob s) :
      StepLeaves s (haltZeroWord s true)
  | zeroWord (hr : s.status = .running) (hm : ¬ StopsMisaligned s) (hi : ¬ FetchOob s) (hw : wordAtPc s = 0#32) :
      StepLeaves s (haltZeroWord s false)
  | faultHalts {w : Word} {k : DecodeFaultKind} (hf : FetchesWord s w) (hd : decode s.cfg.strictDecode w = .fault k)
      (hp : s.cfg.decodeFaultPolicy = .halt) :
      StepLeaves s (halt (countInstr s) .haltDecodeFault [.decodeFault s.pc w k])
  | faultSkips {w : Word} {k : DecodeFaultKind} (hf : FetchesWord s w) (hd : decode s.cfg.strictDecode w = .fault k)
      (hp : s.cfg.decodeFaultPolicy = .skip) :
      StepLeaves s (setPc (emit (countInstr s) [.decodeFault s.pc w k]) (s.pc + 4#32))
  | writesReg {i : Instr} {rd : Reg} {v : Word} {target : Target} (hx : Executes s i) (hd : destReg i = some rd) :
      StepLeaves s (commit (countInstr s) { rdWrite := some (rd, v), target := target })
  | accessFaults {i : Instr} {ea : Word} {w : Width} {k : AccessKind} (hx : Executes s i)
      (ha : dataAccess s i = some (ea, w, k)) (hout : ¬ InBounds s ea.toNat (widthBytes w)) :
      StepLeaves s (halt (countInstr s) .haltMemFault [.memFault s.pc ea w k])
  | stores {i : Instr} {ea : Word} {w : Width} {v : Word} (hx : Executes s i)
      (ha : dataAccess s i = some (ea, w, .store)) (hin : InBounds s ea.toNat (widthBytes w)) :
      StepLeaves s (commit (countInstr s) { memWrite := some ⟨ea, w, v⟩ })
  | branches {i : Instr} {target : Target} (hx : Executes s i) :
      StepLeaves s (commit (countInstr s) { target := target })
  | emits {e : Event} (hx : Executes s .ecall) (he : EventCause s e) :
      StepLeaves s (commit (countInstr s) { events := [e] })
  | exits (hx : Executes s .ecall) (h10 : readReg s 17#5 = 10#32) :
      StepLeaves s (halt (setPc (countInstr s) (s.pc + 4#32)) .haltExit [])

theorem stepLeaves_of_ecall {s : State} (hx : Executes s .ecall) :
    StepLeaves s (commit (countInstr s) (effSyscall s)) := by
  by_cases h1 : readReg s 17#5 = 1#32
  · rw [effSyscall_of_one h1]
    exact .emits hx ⟨hx, h1, rfl⟩
  by_cases h4 : readReg s 17#5 = 4#32
  · rw [effSyscall_of_four h4]
    exact .emits hx ⟨hx, h4, fun b => ne_zero_of_mem_syscallString⟩
  by_cases h10 : readReg s 17#5 = 10#32
  · rw [effSyscall_of_ten h10, commit_exit]
    exact .exits hx h10
  · rw [effSyscall_of_unknown h1 h4 h10]
    exact .emits hx ⟨hx, rfl, h1, h4, h10⟩

theorem stepLeaves_of_executes {s : State} {i : Instr} (hx : Executes s i) :
    StepLeaves s (commit (countInstr s) (effectOf s i)) := by
  rcases effectOf_cases s i with ⟨rd, v, target, hd, he, -⟩ | ⟨ea, w, k, ha, hout, he⟩ | ⟨ea, w, v, ha, hin, he⟩ |
    ⟨b, t, -, -, he⟩ | ⟨rfl, he⟩
  · exact he ▸ .writesReg hx hd
  · rw [he, commit_of_fault rfl, emit_nil]
    exact .accessFaults hx ha hout
  · exact he ▸ .stores hx ha hin
  · obtain ⟨target, ht⟩ := effBranch_eq_target b t
    exact he ▸ ht ▸ .branches hx
  · exact he ▸ stepLeaves_of_ecall hx

/-- Every step leaves a state, in one of the ways above. -/
theorem step_leaves (s : State) : ∃ t, step s = .next t ∧ StepLeaves s t := by
  rcases step_cases s with ⟨hr, h⟩ | ⟨hr, hm, h⟩ | ⟨hr, hm, ho, h⟩ | ⟨hr, hm, hi, hw, h⟩ | ⟨w, k, hf, hd, h⟩ |
    ⟨w, i, hf, hd, h⟩
  · exact ⟨_, h, .halted hr⟩
  · exact ⟨_, h, .misaligned hr hm⟩
  · exact ⟨_, h, .outOfBounds hr hm ho⟩
  · exact ⟨_, h, .zeroWord hr hm hi hw⟩
  · refine ⟨_, h, ?_⟩
    cases hp : s.cfg.decodeFaultPolicy with
    | halt => exact takeDecodeFault_of_halt (s := countInstr s) hp w k ▸ .faultHalts hf hd hp
    | skip => exact takeDecodeFault_of_skip (s := countInstr s) hp w k ▸ .faultSkips hf hd hp
  · refine ⟨_, h.trans (exec_eq_commit i (countInstr s)), ?_⟩
    rw [effectOf_countInstr]
    exact stepLeaves_of_executes ⟨w, hf, hd⟩

theorem stepLeaves_of_next {s t : State} (h : step s = .next t) : StepLeaves s t := by
  obtain ⟨u, hu, leaves⟩ := step_leaves s
  cases h.symm.trans hu
  exact leaves

/-- Settles O33: `step_leaves` without what the state is. -/
theorem everyStepHasANextState : Obligations.EveryStepHasANextState := by
  unfold Obligations.EveryStepHasANextState
  intro s
  obtain ⟨t, h, -⟩ := step_leaves s
  exact ⟨t, h⟩

end Sys2Proof.Machine
end

section
/-! SUPPORT. The proofs of the statements about one step's status, counter, events, registers and memory, read off
`StepLeaves`. -/

namespace Sys2Proof.Machine

open Sys2Proof.Safety

/-! ### What is executed (40_execution_cycle.md R103 to R106) -/

/-- Settles O32: the four bytes are the word at the pc, and a word that decodes to an instruction is not zero. -/
theorem stepRunsTheDecodedInstruction : Obligations.StepRunsTheDecodedInstruction := by
  unfold Obligations.StepRunsTheDecodedInstruction
  intro s w i hr hm hin hw hd
  have inBounds : ¬ FetchOob s := by omega
  have word : wordAtPc s = w := (memRead_word s.mem s.pc.toNat).trans hw.symm
  have notZero : w ≠ 0#32 := fun h => nomatch hd.symm.trans ((decode_eq_zero_iff _ w).2 h)
  exact ⟨wellFormed_of_decode hd, step_of_instr ⟨hr, hm, inBounds, word, notZero⟩ hd⟩

theorem fetchesWord_of_executes {s : State} {i : Instr} (hx : Executes s i) : ∃ w, FetchesWord s w := by
  obtain ⟨w, hf, -⟩ := hx
  exact ⟨w, hf⟩

/-! ### The events -/

/-- Settles O40: a step that emits is one of six, and each emits the one event whose cause it is. -/
theorem eventsComeFromTheirCauses : Obligations.EventsComeFromTheirCauses := by
  unfold Obligations.EventsComeFromTheirCauses
  intro s t h
  have silent (ht : t.events = s.events) :
      ∃ es, t.events = s.events ++ es ∧ es.length ≤ 1 ∧ ∀ e ∈ es, EventCause s e :=
    ⟨[], by simp [ht]⟩
  have emitted {e : Event} (ht : t.events = s.events ++ [e]) (he : EventCause s e) :
      ∃ es, t.events = s.events ++ es ∧ es.length ≤ 1 ∧ ∀ e ∈ es, EventCause s e :=
    ⟨[e], by simp [ht, he]⟩
  cases stepLeaves_of_next h with
  | halted => exact silent rfl
  | misaligned hr hm => exact emitted rfl ⟨rfl, hr, hm⟩
  | outOfBounds hr hm ho => exact emitted rfl ⟨rfl, hr, hm, ho⟩
  | zeroWord => exact silent (List.append_nil _)
  | faultHalts hf hd => exact emitted rfl ⟨rfl, hf, hd⟩
  | faultSkips hf hd => exact emitted rfl ⟨rfl, hf, hd⟩
  | accessFaults hx ha hout => exact emitted rfl ⟨rfl, _, hx, ha, hout⟩
  | emits hx he => exact emitted (by simp [commit_events]) he
  | writesReg | stores | branches | exits => exact silent (by simp [commit_events])

/-- A step appends to the events before it. -/
theorem exists_events_of_step {s t : State} (h : step s = .next t) : ∃ es, t.events = s.events ++ es := by
  obtain ⟨es, hes, -⟩ := eventsComeFromTheirCauses s t h
  exact ⟨es, hes⟩

/-- Settles O56: the events STEP answers are those after the ones there were before. -/
theorem stepAnswersRunningAndItsEvents : Obligations.StepAnswersRunningAndItsEvents := by
  unfold Obligations.StepAnswersRunningAndItsEvents
  intro s t h
  obtain ⟨es, hes⟩ := exists_events_of_step h
  refine ⟨running_eq_true_iff t, es, hes, ?_⟩
  rw [transact, hostStep, afterStep_of_next h, hes, List.drop_left]

/-! ### The counter -/

/-- Settles O39: the counter is incremented after the fetch and before anything that follows it. -/
theorem counterCountsNonZeroFetches : Obligations.CounterCountsNonZeroFetches := by
  unfold Obligations.CounterCountsNonZeroFetches
  intro s t h
  have fetched (ht : t.icount = s.icount + 1) (hf : ∃ w, FetchesWord s w) :
      ((∃ w, FetchesWord s w) → t.icount = s.icount + 1) ∧ ((¬ ∃ w, FetchesWord s w) → t.icount = s.icount) :=
    ⟨fun _ => ht, fun hn => absurd hf hn⟩
  have notFetched (ht : t.icount = s.icount) (hf : ¬ ∃ w, FetchesWord s w) :
      ((∃ w, FetchesWord s w) → t.icount = s.icount + 1) ∧ ((¬ ∃ w, FetchesWord s w) → t.icount = s.icount) :=
    ⟨fun he => absurd he hf, fun _ => ht⟩
  cases stepLeaves_of_next h with
  | halted hr => exact notFetched rfl fun ⟨w, hrun, _⟩ => hr hrun
  | misaligned _ hm => exact notFetched rfl fun ⟨w, _, hnm, _⟩ => hnm hm
  | outOfBounds _ _ ho => exact notFetched rfl fun ⟨w, _, _, hi, _⟩ => hi ho
  | zeroWord _ _ _ hw => exact notFetched rfl fun ⟨w, _, _, _, hword, hne⟩ => hne (hword.symm.trans hw)
  | faultHalts hf | faultSkips hf => exact fetched rfl ⟨_, hf⟩
  | accessFaults hx | exits hx => exact fetched rfl (fetchesWord_of_executes hx)
  | writesReg hx | stores hx | branches hx | emits hx => exact fetched (by simp) (fetchesWord_of_executes hx)

/-! ### The faults -/

/-- Settles O38: the only outcome of an access out of bounds is its memory fault, from the counted state. -/
theorem outOfBoundsAccessHaltsWithNothingChanged : Obligations.OutOfBoundsAccessHaltsWithNothingChanged := by
  unfold Obligations.OutOfBoundsAccessHaltsWithNothingChanged
  rintro s i ea w k ⟨word, hf, hd⟩ ha hout
  have outcome : effectOf (countInstr s) i = { fault := some ⟨ea, w, k⟩ } :=
    (effectOf_countInstr s i).trans (effectOf_of_outOfBounds ha (Nat.not_le.2 hout))
  refine ⟨_, (step_of_instr hf hd).trans (exec_eq_commit i (countInstr s)), ?_⟩
  rw [outcome]
  exact commit_memFault (countInstr s) ea w k

/-! ### The halts -/

/-- The status a running step leaves, with the cause of each halt (60_exceptions.md R184). -/
theorem status_cases {s t : State} (hr : s.status = .running) (h : step s = .next t) :
    t.status = .running ∨
      (t.status = .haltZero ∧ ¬ StopsMisaligned s ∧ (FetchOob s ∨ wordAtPc s = 0#32)) ∨
      (t.status = .haltExit ∧ Executes s .ecall ∧ readReg s 17#5 = 10#32) ∨
      (t.status = .haltDecodeFault ∧ s.cfg.decodeFaultPolicy = .halt ∧
        ∃ w k, FetchesWord s w ∧ decode s.cfg.strictDecode w = .fault k) ∨
      (t.status = .haltMemFault ∧ ∃ i ea w k, Executes s i ∧ dataAccess s i = some (ea, w, k) ∧
        ¬ InBounds s ea.toNat (widthBytes w)) ∨
      (t.status = .haltPcMisaligned ∧ StopsMisaligned s) := by
  cases stepLeaves_of_next h with
  | halted hh => exact absurd hr hh
  | misaligned _ hm => exact .inr (.inr (.inr (.inr (.inr ⟨rfl, hm⟩))))
  | outOfBounds _ hm ho => exact .inr (.inl ⟨rfl, hm, .inl ho⟩)
  | zeroWord _ hm _ hw => exact .inr (.inl ⟨rfl, hm, .inr hw⟩)
  | faultHalts hf hd hp => exact .inr (.inr (.inr (.inl ⟨rfl, hp, _, _, hf, hd⟩)))
  | accessFaults hx ha hout => exact .inr (.inr (.inr (.inr (.inl ⟨rfl, _, _, _, _, hx, ha, hout⟩))))
  | exits hx h10 => exact .inr (.inr (.inl ⟨rfl, hx, h10⟩))
  | faultSkips | writesReg | stores | branches | emits => exact .inl (by simp [commit_status, hr])

/-- Settles O41: by `status_cases` a halt has its cause, and each cause makes the step one whose status is that halt's. -/
theorem eachHaltHasItsCause : Obligations.EachHaltHasItsCause := by
  unfold Obligations.EachHaltHasItsCause
  intro s t hr h
  have byStatus := status_cases hr h
  have leaves {u : State} (hu : step s = .next u) : t.status = u.status := by
    cases h.symm.trans hu
    rfl
  refine ⟨⟨fun ht => ?_, fun ⟨hm, hz⟩ => ?zero⟩, ⟨fun ht => ?_, fun ⟨hx, h10⟩ => ?exit⟩,
    ⟨fun ht => ?_, fun ⟨hp, w, k, hf, hd⟩ => ?decodeFault⟩,
    ⟨fun ht => ?_, fun ⟨i, ea, w, k, hx, ha, hout⟩ => ?memFault⟩, ⟨fun ht => ?_, fun hm => ?misaligned⟩⟩
  case zero =>
    by_cases ho : FetchOob s
    · exact leaves (step_of_oob hr hm ho)
    · exact leaves (step_of_zero hr hm ho (hz.resolve_left ho))
  case exit =>
    obtain ⟨-, exits⟩ := ecallServiceTenExits s h10
    obtain ⟨u, hu, -, status, -⟩ := exits hx
    exact (leaves hu).trans status
  case decodeFault =>
    have halts := step_of_fault hf hd
    rw [takeDecodeFault_of_halt (s := counted s) hp] at halts
    exact leaves halts
  case memFault =>
    obtain ⟨u, hu, status, -⟩ := outOfBoundsAccessHaltsWithNothingChanged s i ea w k hx ha (Nat.not_le.1 hout)
    exact (leaves hu).trans status
  case misaligned => exact leaves (step_of_misaligned hr hm)
  all_goals simpa [ht] using byStatus

/-- Settles O36: under FETCH, by O41, the status would need a cause that asks for FAULT. -/
theorem misalignedPcHaltsUnderFaultPolicyOnly : Obligations.MisalignedPcHaltsUnderFaultPolicyOnly := by
  unfold Obligations.MisalignedPcHaltsUnderFaultPolicyOnly
  refine fun s hr => ⟨fun hp hpc => ⟨_, step_of_misaligned hr ⟨hp, hpc⟩, halt_halts s _ _⟩, fun hp => ?_⟩
  obtain ⟨t, h⟩ := everyStepHasANextState s
  obtain ⟨-, -, -, -, misaligned⟩ := eachHaltHasItsCause s t hr h
  refine ⟨t, h, fun ht => ?_⟩
  obtain ⟨policy, -⟩ := misaligned.1 ht
  cases hp.symm.trans policy

/-- Settles O42: a step that ends in one of these halts is a `halt` of the state before it, counted or not. -/
theorem faultsArePrecise : Obligations.FaultsArePrecise := by
  unfold Obligations.FaultsArePrecise
  intro s t hr h hne hnx
  cases stepLeaves_of_next h with
  | halted hh => exact absurd hr hh
  | misaligned | outOfBounds | zeroWord =>
    exact ⟨rfl, rfl, fun _ => rfl, fun ht => ht.elim nofun nofun, fun _ => rfl⟩
  | faultHalts | accessFaults => exact ⟨rfl, rfl, fun _ => rfl, fun _ => rfl, fun ht => ht.elim nofun nofun⟩
  | exits => exact absurd rfl hnx
  | faultSkips | writesReg | stores | branches | emits => exact absurd (by simp [commit_status, hr]) hne

/-! ### What a step changes -/

/-- Settles O43: every other step leaves memory as it is, and a store leaves the bytes it does not cover. -/
theorem onlyStoresChangeMemory : Obligations.OnlyStoresChangeMemory := by
  unfold Obligations.OnlyStoresChangeMemory
  intro s t a h hne
  cases stepLeaves_of_next h with
  | @stores i ea w v hx ha hin =>
    have covered : ea.toNat ≤ a ∧ a < ea.toNat + widthBytes w := by
      by_contra hout
      exact hne (by simp [commit_mem, memGet_memWrite, hout])
    exact ⟨i, ea, w, hx, ha, covered.1, covered.2, hin⟩
  | halted | misaligned | outOfBounds | zeroWord | faultHalts | faultSkips | accessFaults | exits => exact absurd rfl hne
  | writesReg | branches | emits => exact absurd (by simp [commit_mem]) hne

/-- Settles O44: every other step leaves the register file as it is, and a write is seen by reads of its own register. -/
theorem onlyTheDestinationRegisterChanges : Obligations.OnlyTheDestinationRegisterChanges := by
  unfold Obligations.OnlyTheDestinationRegisterChanges
  intro s t r h hne
  have same (ht : t.regs = s.regs) : r ≠ 0#5 ∧ ∃ i, Executes s i ∧ destReg i = some r :=
    absurd (readReg_congr ht r) hne
  cases stepLeaves_of_next h with
  | @writesReg i rd v target hx hd =>
    have written : r = rd ∧ r ≠ 0#5 := by
      by_contra hother
      refine hne ?_
      rw [readReg_congr (s := writeReg s rd v) (by simp [commit_regs, writeReg_regs]), readReg_writeReg, if_neg hother]
    obtain ⟨rfl, notZero⟩ := written
    exact ⟨notZero, i, hx, hd⟩
  | halted | misaligned | outOfBounds | zeroWord | faultHalts | faultSkips | accessFaults | exits => exact same rfl
  | stores | branches | emits => exact same (by simp [commit_regs])

end Sys2Proof.Machine
end

section
/-! SUPPORT. The proof that a step reads neither the quiet flag nor the counter nor the events so far (10_state.md R41):
every operation of the step commutes with `withUnread`. -/

namespace Sys2Proof.Machine

open Sys2Proof.Safety

/-! ### The operations of a step commute with `withUnread` -/

theorem emit_withUnread (s : State) (q : Bool) (n : Nat) (es info : List Event) :
    emit (withUnread s q n es) info = withUnread (emit s info) q n (es ++ info) := rfl

theorem halt_withUnread (s : State) (q : Bool) (n : Nat) (es info : List Event) (cause : Status) :
    halt (withUnread s q n es) cause info = withUnread (halt s cause info) q n (es ++ info) := rfl

theorem setPc_withUnread (s : State) (q : Bool) (n : Nat) (es : List Event) (t : Word) :
    setPc (withUnread s q n es) t = withUnread (setPc s t) q n es := rfl

theorem nextPc_withUnread (s : State) (q : Bool) (n : Nat) (es : List Event) (target : Target) :
    nextPc (withUnread s q n es) target = nextPc s target := by
  cases target <;> rfl

theorem commitReg_withUnread (s : State) (q : Bool) (n : Nat) (es : List Event) (w : Option (Reg × Word)) :
    commitReg (withUnread s q n es) w = withUnread (commitReg s w) q n es := by
  cases w <;> rfl

theorem commitMem_withUnread (s : State) (q : Bool) (n : Nat) (es : List Event) (w : Option MemWriteInfo) :
    commitMem (withUnread s q n es) w = withUnread (commitMem s w) q n es := by
  cases w <;> rfl

theorem commit_withUnread (s : State) (q : Bool) (n : Nat) (es : List Event) (o : Effect) :
    commit (withUnread s q n es) o =
      withUnread (commit s o) q n (es ++ (commit s o).events.drop s.events.length) := by
  rw [commit_events, List.drop_left]
  cases hfault : o.fault with
  | some f =>
    rw [commit_of_fault hfault, commit_of_fault hfault, emit_withUnread, halt_withUnread, List.append_assoc]
    rfl
  | none =>
    rw [commit_of_ok hfault, commit_of_ok hfault, emit_withUnread, commitReg_withUnread, commitMem_withUnread,
      nextPc_withUnread, setPc_withUnread, halt_withUnread, List.append_nil, List.append_nil]
    split <;> rfl

theorem takeDecodeFault_withUnread (s : State) (q : Bool) (n : Nat) (es : List Event) (w : Word) (k : DecodeFaultKind) :
    takeDecodeFault (withUnread s q n es) w k =
      withUnread (takeDecodeFault s w k) q n (es ++ (takeDecodeFault s w k).events.drop s.events.length) := by
  cases hp : s.cfg.decodeFaultPolicy with
  | halt =>
    rw [takeDecodeFault_of_halt (s := withUnread s q n es) hp, takeDecodeFault_of_halt hp, halt_events, List.drop_left]
    rfl
  | skip =>
    rw [takeDecodeFault_of_skip (s := withUnread s q n es) hp, takeDecodeFault_of_skip hp, setPc_events, emit_events,
      List.drop_left]
    rfl

@[simp] theorem takeDecodeFault_icount (s : State) (w : Word) (k : DecodeFaultKind) :
    (takeDecodeFault s w k).icount = s.icount := by
  cases hp : s.cfg.decodeFaultPolicy with
  | halt => rw [takeDecodeFault_of_halt hp, halt_icount]
  | skip => rw [takeDecodeFault_of_skip hp, setPc_icount, emit_icount]

/-! ### The step commutes with it -/

/-- A step that ends in a halt counts nothing and appends what the halt emits, with the fields replaced or not. -/
theorem step_withUnread_of_halt {s : State} {q : Bool} {n : Nat} {es info : List Event} {cause : Status}
    (h : step (withUnread s q n es) = .next (halt (withUnread s q n es) cause info)) :
    step (withUnread s q n es) = .next (withUnread (halt s cause info) q (n + ((halt s cause info).icount - s.icount))
      (es ++ (halt s cause info).events.drop s.events.length)) := by
  rw [h, halt_withUnread, halt_icount, Nat.sub_self, halt_events, List.drop_left]
  rfl

/-- Settles O46, by the cases of a step: none of their conditions reads the three fields, and each ends in operations that
commute with replacing them. -/
theorem quietCounterAndEventsAreNeverRead : Obligations.QuietCounterAndEventsAreNeverRead := by
  unfold Obligations.QuietCounterAndEventsAreNeverRead
  intro s t q n es h
  change step (withUnread s q n es) =
    .next (withUnread t q (n + (t.icount - s.icount)) (es ++ t.events.drop s.events.length))
  have one : (counted s).icount - s.icount = 1 := Nat.add_sub_cancel_left ..
  rcases step_cases s with ⟨hr, h'⟩ | ⟨hr, hm, h'⟩ | ⟨hr, hm, ho, h'⟩ | ⟨hr, hm, hi, hw, h'⟩ | ⟨w, k, hf, hd, h'⟩ |
    ⟨w, i, hf, hd, h'⟩
  · cases h.symm.trans h'
    rw [step_of_halted (s := withUnread s q n es) hr, Nat.sub_self, List.drop_length, List.append_nil]
    rfl
  · cases h.symm.trans h'
    exact step_withUnread_of_halt (step_of_misaligned (s := withUnread s q n es) hr hm)
  · cases h.symm.trans h'
    exact step_withUnread_of_halt (step_of_oob (s := withUnread s q n es) hr hm ho)
  · cases h.symm.trans h'
    exact step_withUnread_of_halt (step_of_zero (s := withUnread s q n es) hr hm hi hw)
  · cases h.symm.trans h'
    rw [step_of_fault (s := withUnread s q n es) hf hd, takeDecodeFault_icount, one]
    exact congrArg _ (takeDecodeFault_withUnread (counted s) q (n + 1) es w k)
  · rw [exec_eq_commit] at h'
    cases h.symm.trans h'
    have outcome : effectOf (counted (withUnread s q n es)) i = effectOf (counted s) i :=
      effectOf_withUnread (counted s) q (n + 1) es i
    rw [step_of_instr (s := withUnread s q n es) hf hd, exec_eq_commit, outcome, commit_icount, one]
    exact congrArg _ (commit_withUnread (counted s) q (n + 1) es _)

end Sys2Proof.Machine
end

section
/-! SUPPORT. The proofs of the statements about what every step and every transaction keeps: the invariant (10_state.md R23,
20_memory.md R46), an even pc (10_state.md R31) and the parameters (10_state.md R44). -/

namespace Sys2Proof.Machine

open Sys2Proof.Safety

/-! ### The pc stays even -/

theorem even_add {a b : Word} (ha : EvenOffset a) (hb : EvenOffset b) : EvenOffset (a + b) := by
  rw [EvenOffset, BitVec.getLsbD_add (by decide), ha, hb, BitVec.carry_zero]
  rfl

theorem even_signExtend {n : Nat} {off : BitVec n} (hn : 0 < n) (h : EvenOffset off) :
    EvenOffset (off.signExtend 32) := by
  rw [EvenOffset, BitVec.getLsbD_signExtend, if_pos hn, h, Bool.and_false]

theorem even_jalrTarget (s : State) (rd rs1 : Reg) (imm : BitVec 12) : EvenOffset (jalrTarget s rd rs1 imm) := by
  have mask : (0xFFFFFFFE#32).getLsbD 0 = false := rfl
  rw [jalrTarget, EvenOffset, BitVec.getLsbD_and, mask, Bool.and_false]

theorem even_pc_add_four {s : State} (h : PcEven s) : EvenOffset (s.pc + 4#32) := even_add h rfl

theorem even_nextPc_effBranch {s : State} (h : PcEven s) {off : BitVec 13} (hoff : EvenOffset off) (taken : Bool) :
    EvenOffset (nextPc s (effBranch taken (branchTarget s off)).target) := by
  cases taken with
  | false => exact even_pc_add_four h
  | true => exact even_add h (even_signExtend (by decide) hoff)

theorem effLoad_target (s : State) (rd : Reg) (ea : Word) (w : Width) (ext : BitVec (8 * widthBytes w) → Word) :
    (effLoad s rd ea w ext).target = .seq := by
  rcases effLoad_cases s rd ea w ext with ⟨-, v, he⟩ | ⟨-, he⟩ <;>
    exact congrArg Effect.target he

theorem effStore_target (s : State) (ea : Word) (w : Width) (v : Word) : (effStore s ea w v).target = .seq := by
  rcases effStore_cases s ea w v with ⟨-, he⟩ | ⟨-, he⟩ <;> exact congrArg Effect.target he

theorem effSyscall_target (s : State) : (effSyscall s).target = .seq := by
  rcases effSyscall_cases s with ⟨-, he⟩ | ⟨-, he⟩ | ⟨-, he⟩ | ⟨-, -, -, he⟩ <;>
    exact congrArg Effect.target he

/-- Branches and JAL add an even offset, JALR clears bit 0, and every other instruction goes on at pc + 4. -/
theorem even_nextPc_effectOf {s : State} (h : PcEven s) {i : Instr} (hwf : i.wellFormed = true) :
    EvenOffset (nextPc s (effectOf s i).target) := by
  cases i with
  | beq _ _ off | bne _ _ off | blt _ _ off | bge _ _ off | bltu _ _ off | bgeu _ _ off =>
    exact even_nextPc_effBranch h (of_decide_eq_true hwf) _
  | jal rd off => exact even_add h (even_signExtend (by decide) (of_decide_eq_true hwf))
  | jalr rd rs1 imm => exact even_jalrTarget s rd rs1 imm
  | lb | lh | lw | lbu | lhu =>
    rw [effectOf, effLoad_target]
    exact even_pc_add_four h
  | sb | sh | sw =>
    rw [effectOf, effStore_target]
    exact even_pc_add_four h
  | ecall =>
    rw [effectOf, effSyscall_target]
    exact even_pc_add_four h
  | _ => exact even_pc_add_four h

theorem commit_pcEven {s : State} (h : PcEven s) {o : Effect} (ho : EvenOffset (nextPc s o.target)) :
    PcEven (commit s o) := by
  rw [PcEven, commit_pc]
  split
  · exact h
  · exact ho

theorem step_pcEven {s t : State} (h : step s = .next t) (hpc : PcEven s) : PcEven t := by
  rcases step_cases s with ⟨-, h'⟩ | ⟨-, -, h'⟩ | ⟨-, -, -, h'⟩ | ⟨-, -, -, -, h'⟩ | ⟨w, k, -, -, h'⟩ |
    ⟨w, i, -, hd, h'⟩
  · cases h.symm.trans h'
    exact hpc
  · cases h.symm.trans h'
    exact hpc
  · cases h.symm.trans h'
    exact hpc
  · cases h.symm.trans h'
    exact hpc
  · cases h.symm.trans h'
    cases hp : s.cfg.decodeFaultPolicy with
    | halt => rwa [takeDecodeFault_of_halt (s := counted s) hp]
    | skip =>
      rw [takeDecodeFault_of_skip (s := counted s) hp]
      exact even_pc_add_four hpc
  · cases h.symm.trans (h'.trans (exec_eq_commit i (counted s)))
    exact commit_pcEven (s := counted s) hpc (even_nextPc_effectOf (s := counted s) hpc (wellFormed_of_decode hd))

/-! ### Every step keeps the invariant -/

theorem inv_of_same {s t : State} (hi : Inv s) (hmem : t.mem = s.mem) (hzero : t.regs.get 0 = s.regs.get 0)
    (hcfg : t.cfg = s.cfg) : Inv t := by
  rwa [Safety.Inv, MemoryOk, ZeroSlotOk, hmem, hzero, hcfg]

/-- Only an in-bounds store changes memory, and no register write reaches the slot of x0. -/
theorem step_inv {s t : State} (h : step s = .next t) (hi : Inv s) : Inv t := by
  cases stepLeaves_of_next h with
  | halted | misaligned | outOfBounds | zeroWord | faultHalts | faultSkips | accessFaults | exits =>
    exact inv_of_same hi rfl rfl rfl
  | writesReg | branches | emits => exact inv_of_same hi (by simp [commit_mem]) (by simp [commit_regs]) (by simp)
  | @stores _ ea w v _ _ hin =>
    obtain ⟨⟨hwf, hbelow⟩, hzero, hlegal⟩ := hi
    have written : Inv { s with mem := memWrite s.mem ea.toNat (widthBytes w) v } :=
      ⟨⟨memWrite_wf hwf _ _ _, memWrite_below hbelow hin v⟩, hzero, hlegal⟩
    exact inv_of_same written (by simp [commit_mem]) (by simp [commit_regs]) (by simp)

/-- Settles O48: `step_inv` and `step_pcEven`. -/
theorem stepKeepsTheInvariant : Obligations.StepKeepsTheInvariant := by
  unfold Obligations.StepKeepsTheInvariant
  exact fun s t h => ⟨step_inv h, step_pcEven h⟩

/-! ### Every transaction keeps the invariant -/

theorem memory_nil_ok (capacity : Nat) : Memory.wf [] ∧ Memory.below [] capacity :=
  ⟨⟨List.Pairwise.nil, nofun⟩, nofun⟩

theorem resetWith_inv {c : Config} (h : c.Legal) : Inv (State.resetWith c) :=
  ⟨memory_nil_ok _, rfl, h⟩

theorem resetWith_pcEven (c : Config) : PcEven (State.resetWith c) := BitVec.getLsbD_zero

/-- Settles O47: memory is empty after RESET, and the default parameters are legal. -/
theorem resetMeetsTheInvariant : Obligations.ResetMeetsTheInvariant := by
  unfold Obligations.ResetMeetsTheInvariant
  have legal : defaultConfig.Legal := by decide
  exact ⟨fun c h => ⟨resetWith_inv h, resetWith_pcEven c⟩, resetWith_inv legal, resetWith_pcEven defaultConfig⟩

theorem loadWords_ok {capacity : Nat} (ws : List Word) {m : Memory} (h : Memory.wf m ∧ Memory.below m capacity)
    (a : Nat) :
    Memory.wf (loadWords capacity m a ws) ∧ Memory.below (loadWords capacity m a ws) capacity := by
  induction ws generalizing m a with
  | nil => exact h
  | cons w ws ih =>
    rw [loadWords]
    split
    · rename_i hfits
      exact ih ⟨memWrite_wf h.1 _ _ _, memWrite_below h.2 hfits w⟩ (a + 4)
    · exact h

theorem loadSegments_ok {capacity : Nat} (segs : List ElfSegment) {m : Memory}
    (h : Memory.wf m ∧ Memory.below m capacity)
    (hfit : ∀ seg ∈ segs, isLoadable seg = true → segmentFits capacity seg = true) :
    Memory.wf (loadSegments m segs) ∧ Memory.below (loadSegments m segs) capacity := by
  induction segs generalizing m with
  | nil => exact h
  | cons seg segs ih =>
    obtain ⟨hseg, hsegs⟩ := List.forall_mem_cons.1 hfit
    refine ih ?_ hsegs
    split
    · rename_i hload
      have fits := hseg hload
      rw [segmentFits, Bool.and_eq_true, decide_eq_true_iff, decide_eq_true_iff] at fits
      exact ⟨memSetList_wf _ h.1 _, memSetList_below _ h.2 _ (by omega)⟩
    · exact h

theorem finishLoad_inv {s : State} (hi : Inv s) {m : Memory} (hm : Memory.wf m ∧ Memory.below m s.cfg.memCapacity)
    (entry : Word) : Inv (finishLoad s m entry) := by
  obtain ⟨-, hzero, hlegal⟩ := hi
  exact ⟨hm, hzero, hlegal⟩

/-- The validation of R207 covers every loadable segment. -/
theorem segmentFits_of_elfValid {capacity : Nat} {img : ElfImage} (h : elfValid capacity img = true) :
    ∀ seg ∈ img.segments, isLoadable seg = true → segmentFits capacity seg = true := by
  simp only [elfValid, Bool.and_eq_true, List.all_eq_true, List.mem_filter] at h
  obtain ⟨-, fits⟩ := h
  exact fun seg hmem hload => fits seg ⟨hmem, hload⟩

theorem loadElf_inv {s : State} (hi : Inv s) (image : Option ElfImage) : Inv (loadElf s image).2 := by
  cases image with
  | none => exact hi
  | some img =>
    rw [loadElf]
    split
    · rename_i hv
      exact finishLoad_inv hi (loadSegments_ok _ (memory_nil_ok _) (segmentFits_of_elfValid hv)) _
    · exact hi

theorem afterStep_inv {s : State} (hi : Inv s) : Inv (afterStep s) := by
  obtain ⟨t, h, -⟩ := step_leaves s
  rw [afterStep_of_next h]
  exact step_inv h hi

/-- Settles O49, transaction by transaction: STEP by O48's `step_inv`, the loads because they list only bytes that fit, and
RESET because it keeps the parameters. -/
theorem transactionsKeepTheInvariant : Obligations.TransactionsKeepTheInvariant := by
  unfold Obligations.TransactionsKeepTheInvariant
  intro s a hi
  cases a with
  | step => exact afterStep_inv hi
  | loadRaw ws => exact finishLoad_inv hi (loadWords_ok ws (memory_nil_ok _) 0) _
  | loadElf image => exact loadElf_inv hi image
  | reset =>
    obtain ⟨-, -, legal⟩ := hi
    exact resetWith_inv legal
  | setQuiet b => exact inv_of_same hi rfl rfl rfl
  | readReg | readPc | readIcount | readStatus => exact hi

/-! ### The parameters and the quiet flag -/

theorem step_cfg_quiet {s t : State} (h : step s = .next t) : t.cfg = s.cfg ∧ t.quiet = s.quiet := by
  cases stepLeaves_of_next h with
  | halted | misaligned | outOfBounds | zeroWord | faultHalts | faultSkips | accessFaults | exits => exact ⟨rfl, rfl⟩
  | writesReg | stores | branches | emits => simp

/-- Settles O45, transaction by transaction. -/
theorem parametersNeverChange : Obligations.ParametersNeverChange := by
  unfold Obligations.ParametersNeverChange
  intro s a
  cases a with
  | step =>
    obtain ⟨t, h, -⟩ := step_leaves s
    obtain ⟨hcfg, hquiet⟩ := step_cfg_quiet h
    rw [transact, hostStep, afterStep_of_next h]
    exact ⟨hcfg, .inl hquiet⟩
  | loadElf image =>
    rcases loadElf_cases s image with he | ⟨m, entry, he⟩ <;> rw [transact, he] <;> exact ⟨rfl, .inl rfl⟩
  | reset => exact ⟨rfl, .inr (.inl rfl)⟩
  | setQuiet b => exact ⟨rfl, .inr (.inr ⟨b, rfl⟩)⟩
  | loadRaw | readReg | readPc | readIcount | readStatus => exact ⟨rfl, .inl rfl⟩

end Sys2Proof.Machine
end

section
/-! SUPPORT. The proofs of the statements about runs (40_execution_cycle.md R115): a run has one end, normal or in a fault,
and under DECODE_FAULT_POLICY = HALT a decode fault is such an end. -/

namespace Sys2Proof.Machine

open Sys2Proof.Safety

/-! ### A run has one end -/

theorem stepN_of_halted {s : State} (h : s.status ≠ .running) (k : Nat) : stepN k s = s := by
  induction k with
  | zero => rfl
  | succ k ih => rw [stepN, afterStep_of_next (step_of_halted h), ih]

theorem stepN_add (k j : Nat) (s : State) : stepN (k + j) s = stepN j (stepN k s) := by
  induction k generalizing s with
  | zero => rw [Nat.zero_add, stepN]
  | succ k ih => rw [Nat.succ_add, stepN, ih, stepN]

/-- No run ends before another one from the same state: it would still be running there. -/
theorem not_lt_of_runEnds {s t t' : State} {k k' : Nat} (h : RunEnds s k t) (h' : RunEnds s k' t') : ¬ k < k' := by
  obtain ⟨-, rfl, halted, -⟩ := h
  obtain ⟨-, -, -, running⟩ := h'
  exact fun hlt => halted (running k hlt)

theorem normalEnd_eq_not_faultEnd {t : State} (h : t.status ≠ .running) : normalEnd t = !faultEnd t := by
  unfold normalEnd faultEnd
  cases ht : t.status with
  | running => exact absurd ht h
  | haltZero | haltExit | haltDecodeFault | haltMemFault | haltPcMisaligned => rfl

/-- Settles O50: the final state is halted, so further steps stay in it, and of two ends neither can come before the other. -/
theorem runsEndOnceNormallyOrInAFault : Obligations.RunsEndOnceNormallyOrInAFault := by
  unfold Obligations.RunsEndOnceNormallyOrInAFault
  intro s t k h
  obtain ⟨running, rfl, halted, -⟩ := id h
  refine ⟨normalEnd_eq_not_faultEnd halted, ?atLeastOne, fun j => ?sticky, fun k' t' h' => ?unique⟩
  case atLeastOne =>
    refine Nat.one_le_iff_ne_zero.2 ?_
    rintro rfl
    exact halted running
  case sticky => rw [stepN_add, stepN_of_halted halted]
  case unique =>
    obtain rfl : k' = k := Nat.le_antisymm (Nat.not_lt.1 (not_lt_of_runEnds h h')) (Nat.not_lt.1 (not_lt_of_runEnds h' h))
    obtain ⟨-, rfl, -⟩ := h'
    exact ⟨rfl, rfl⟩

/-! ### Under HALT a decode fault ends the run -/

/-- The parameters stay as they are along a run. -/
theorem afterStep_cfg (s : State) : (afterStep s).cfg = s.cfg := by
  obtain ⟨t, h, -⟩ := step_leaves s
  obtain ⟨hcfg, -⟩ := step_cfg_quiet h
  rw [afterStep_of_next h, hcfg]

/-- A step under HALT that emits a decode fault halts with HALT_DECODE_FAULT. -/
theorem afterStep_events_of_halt {s : State} (hp : s.cfg.decodeFaultPolicy = .halt) :
    ∃ es, (afterStep s).events = s.events ++ es ∧
      (es.any isDecodeFault = true → (afterStep s).status = .haltDecodeFault) := by
  obtain ⟨t, h, -⟩ := step_leaves s
  obtain ⟨es, hes, -, causes⟩ := eventsComeFromTheirCauses s t h
  rw [afterStep_of_next h]
  refine ⟨es, hes, fun hany => ?_⟩
  obtain ⟨e, he, hdf⟩ := List.any_eq_true.1 hany
  cases e with
  | decodeFault pc w k =>
    obtain ⟨-, hf, hd⟩ := causes _ he
    obtain ⟨-, -, decodeFault, -⟩ := eachHaltHasItsCause s t hf.1 h
    exact decodeFault.2 ⟨hp, w, k, hf, hd⟩
  | printInt | printStr | unknownSyscall | fetchOutOfBounds | memFault | pcMisaligned => cases hdf

/-- The same along a run, by induction on its length: after the step that emits it no further step is taken. -/
theorem stepN_events_of_halt {s : State} (hp : s.cfg.decodeFaultPolicy = .halt) (k : Nat) :
    ∃ es, (stepN k s).events = s.events ++ es ∧
      (es.any isDecodeFault = true → (stepN k s).status = .haltDecodeFault) := by
  induction k generalizing s with
  | zero => exact ⟨[], (List.append_nil _).symm, nofun⟩
  | succ k ih =>
    obtain ⟨first, hfirst, firstHalts⟩ := afterStep_events_of_halt hp
    obtain ⟨rest, hrest, restHalts⟩ := ih (s := afterStep s) (by rwa [afterStep_cfg])
    refine ⟨first ++ rest, by rw [stepN, hrest, hfirst, List.append_assoc], fun hany => ?_⟩
    rw [List.any_append, Bool.or_eq_true] at hany
    rcases hany with hany | hany
    · have halted := firstHalts hany
      rwa [stepN, stepN_of_halted (by rw [halted]; decide)]
    · exact restHalts hany

/-- Settles O51: were there a decode fault among the events, the run would have ended in HALT_DECODE_FAULT, which is no
normal end. -/
theorem normalRunsUnderHaltMetNoDecodeFault : Obligations.NormalRunsUnderHaltMetNoDecodeFault := by
  unfold Obligations.NormalRunsUnderHaltMetNoDecodeFault
  rintro s t k ⟨-, rfl, -, -⟩ hp
  obtain ⟨es, hes, halts⟩ := stepN_events_of_halt hp k
  rw [safeEnd, hes, List.drop_left]
  cases hany : es.any isDecodeFault with
  | false => rw [Bool.not_false, Bool.and_true]
  | true => simp [normalEnd, halts hany]

end Sys2Proof.Machine
end

section
/-! SUPPORT. The proofs of the statements about the host's transactions: RESET (70_reset_and_hazards.md R203), the accessors
(00_scope.md R8), LOAD_RAW and LOAD_ELF (70_reset_and_hazards.md R205 to R210). -/

namespace Sys2Proof.Machine

open Sys2Proof.Safety

/-! ### RESET, the registers and the accessors -/

/-- Settles O1: every field is that of `State.resetWith`, and the register file is `readReg_resetWith`. -/
theorem resetLeavesTheSpecifiedState : Obligations.ResetLeavesTheSpecifiedState := by
  unfold Obligations.ResetLeavesTheSpecifiedState
  exact ⟨fun s => rfl, fun c => ⟨readReg_resetWith c, rfl, fun a => rfl, rfl, rfl, rfl⟩, rfl, rfl, by decide⟩

/-- Settles O2: the laws of the register file, where the guard for x0 has no effect on another register. -/
theorem registerWritesAreSeenByReadsExceptX0 : Obligations.RegisterWritesAreSeenByReadsExceptX0 := by
  unfold Obligations.RegisterWritesAreSeenByReadsExceptX0
  refine fun s v => ⟨readReg_zero s, writeReg_zero s v, fun r hr => ⟨fun q => ?_, rfl⟩⟩
  have guard : (q = r ∧ q ≠ 0#5) = (q = r) := propext (and_iff_left_of_imp fun h => h ▸ hr)
  simp only [readReg_writeReg, guard]

/-- Settles O57: each accessor and SET_QUIET is its own field. -/
theorem hostReadsAnswerTheirFieldAndSetQuietSetsTheFlag :
    Obligations.HostReadsAnswerTheirFieldAndSetQuietSetsTheFlag := by
  unfold Obligations.HostReadsAnswerTheirFieldAndSetQuietSetsTheFlag
  exact ⟨fun s => ⟨rfl, rfl, rfl, fun b => ⟨setQuiet s b, rfl, rfl, rfl⟩⟩, rfl⟩

/-! ### What neither load changes -/

/-- Settles O55: a load either finishes, which sets memory, pc and status, or leaves the state as it is. -/
theorem loadsKeepRegistersCounterAndQuiet : Obligations.LoadsKeepRegistersCounterAndQuiet := by
  unfold Obligations.LoadsKeepRegistersCounterAndQuiet
  rintro s t _ o h (⟨ws, rfl⟩ | ⟨image, rfl⟩)
  · cases h
    exact ⟨rfl, rfl, rfl, fun _ => rfl, nofun⟩
  · rcases loadElf_cases s image with he | ⟨m, entry, he⟩ <;> rw [transact, he] at h <;> cases h
    · exact ⟨rfl, rfl, rfl, fun hne => absurd rfl hne, fun _ => rfl⟩
    · exact ⟨rfl, rfl, rfl, fun _ => rfl, nofun⟩

/-! ### LOAD_RAW -/

theorem memGet_loadWords_of_lt (capacity : Nat) (ws : List Word) (m : Memory) {a b : Nat} (h : b < a) :
    memGet (loadWords capacity m a ws) b = memGet m b := by
  induction ws generalizing m a with
  | nil => rfl
  | cons w ws ih =>
    rw [loadWords]
    split
    · rw [ih _ (by omega), memGet_memWrite, if_neg (by omega)]
    · rfl

/-- A byte after the words are placed: that of the word that covers its address, if that word fits, and as before if none
does. -/
theorem memGet_loadWords (capacity : Nat) (ws : List Word) (m : Memory) (a k : Nat) :
    memGet (loadWords capacity m a ws) (a + k) =
      if k / 4 < ws.length ∧ a + 4 * (k / 4) + 4 ≤ capacity
      then (ws.getD (k / 4) 0#32).extractLsb' (8 * (k % 4)) 8 else memGet m (a + k) := by
  induction ws generalizing m a k with
  | nil => simp [loadWords]
  | cons w ws ih =>
    rw [loadWords]
    by_cases hfits : a + 4 ≤ capacity
    swap
    · have noneFits : ¬ a + 4 * (k / 4) + 4 ≤ capacity := by omega
      rw [if_neg hfits, if_neg fun h => noneFits h.2]
    rw [if_pos hfits]
    by_cases hk : k < 4
    · have first : k / 4 = 0 := by omega
      have byte : k % 4 = k := by omega
      rw [memGet_loadWords_of_lt _ _ _ (by omega), memGet_memWrite, if_pos (by omega), first, byte,
        if_pos ⟨Nat.succ_pos _, hfits⟩, Nat.add_sub_cancel_left, List.getD_cons_zero]
    · obtain ⟨j, rfl⟩ : ∃ j, k = j + 4 := ⟨k - 4, by omega⟩
      have quotient : (j + 4) / 4 = j / 4 + 1 := by omega
      have remainder : (j + 4) % 4 = j % 4 := by omega
      have address : a + (j + 4) = a + 4 + j := by omega
      have covered : (j / 4 + 1 < ws.length + 1 ∧ a + 4 * (j / 4 + 1) + 4 ≤ capacity) ↔
          (j / 4 < ws.length ∧ a + 4 + 4 * (j / 4) + 4 ≤ capacity) := by omega
      have outside : memGet (memWrite m a 4 w) (a + 4 + j) = memGet m (a + 4 + j) := by
        rw [memGet_memWrite, if_neg (by omega)]
      simp only [address, ih, quotient, remainder, List.length_cons, List.getD_cons_succ, covered, outside]

/-- Settles O52: over cleared memory from address 0, a byte that no word covers is 0, which is also the byte of a word past
the end of the list. -/
theorem loadRawPlacesTheWordsThatFit : Obligations.LoadRawPlacesTheWordsThatFit := by
  unfold Obligations.LoadRawPlacesTheWordsThatFit
  refine fun s ws => ⟨_, rfl, rfl, rfl, fun a => ?_⟩
  have placed := memGet_loadWords s.cfg.memCapacity ws [] 0 a
  simp only [Nat.zero_add] at placed
  refine placed.trans ?_
  by_cases hlen : a / 4 < ws.length
  · simp only [hlen, true_and]
    rfl
  · rw [if_neg fun h => hlen h.1, List.getD_eq_default _ _ (Nat.not_lt.1 hlen), BitVec.extractLsb'_zero, ite_self]
    rfl

/-! ### LOAD_ELF -/

/-- Settles O53: the answer is `elfValid`, and its negation is the list of flaws. -/
theorem loadElfFailsExactlyForFlawedImages : Obligations.LoadElfFailsExactlyForFlawedImages := by
  unfold Obligations.LoadElfFailsExactlyForFlawedImages
  refine fun s => ⟨rfl, fun img => ?_⟩
  have answers : (transact s (.loadElf (some img))).1 = .loaded (elfValid s.cfg.memCapacity img) := by
    cases hv : elfValid s.cfg.memCapacity img <;> simp [transact, loadElf, hv]
  rw [answers]
  simp only [Response.loaded.injEq, elfValid, Bool.and_eq_false_iff, List.all_eq_false, List.mem_filter, isLoadable,
    segmentFits, beq_eq_false_iff_ne, beq_iff_eq, emRiscv, ptLoad, Bool.not_eq_true, decide_eq_false_iff_not, not_le,
    gt_iff_lt, and_assoc, or_assoc]

/-- The file content of the segment covers the address. -/
def covers (a : Nat) (g : ElfSegment) : Bool := decide (g.vaddr.toNat ≤ a ∧ a < g.vaddr.toNat + g.content.length)

/-- The byte that the segment's file content has for the address. -/
def contentByte (a : Nat) (g : ElfSegment) : Byte := g.content.getD (a - g.vaddr.toNat) 0#8

theorem memGet_memSetList_content (m : Memory) (g : ElfSegment) (a : Nat) :
    memGet (memSetList m g.vaddr.toNat g.content) a = if covers a g then contentByte a g else memGet m a := by
  rw [memGet_memSetList]
  by_cases h : g.vaddr.toNat ≤ a ∧ a < g.vaddr.toNat + g.content.length
  · have inContent : a - g.vaddr.toNat < g.content.length := by omega
    rw [dif_pos h, covers, decide_eq_true h, if_pos rfl, contentByte, List.getD_eq_getElem _ _ inContent]
  · rw [dif_neg h, covers, decide_eq_false h, if_neg Bool.false_ne_true]

/-- A byte after the segments are copied is that of the last loadable one that covers it, by induction on the list: the rest
of the segments is copied after the first and wins where it covers. -/
theorem memGet_loadSegments (segs : List ElfSegment) (m : Memory) (a : Nat) :
    memGet (loadSegments m segs) a =
      (((segs.filter isLoadable).reverse.find? (covers a)).map (contentByte a)).getD (memGet m a) := by
  induction segs generalizing m with
  | nil => rfl
  | cons g segs ih =>
    rw [loadSegments, ih]
    cases hload : isLoadable g with
    | false => simp [hload]
    | true =>
      rw [if_pos rfl, memGet_memSetList_content, List.filter_cons_of_pos hload, List.reverse_cons, List.find?_append]
      cases hfind : (segs.filter isLoadable).reverse.find? (covers a) with
      | some g' => rfl
      | none => cases hc : covers a g <;> simp [hc]

/-- Settles O54: the load copies the segments over cleared memory, where `memGet_loadSegments` says what each byte is. -/
theorem loadElfCopiesTheLoadableSegments : Obligations.LoadElfCopiesTheLoadableSegments := by
  unfold Obligations.LoadElfCopiesTheLoadableSegments
  intro s t img h
  have valid : elfValid s.cfg.memCapacity img = true := by
    by_contra hv
    simp [transact, loadElf, hv] at h
  simp only [transact, loadElf, valid, if_true, Prod.mk.injEq, true_and] at h
  subst h
  refine ⟨rfl, rfl, fun a => (memGet_loadSegments img.segments [] a).trans ?_⟩
  change _ = match (img.segments.filter isLoadable).reverse.find? (covers a) with
    | some g => contentByte a g
    | none => 0#8
  cases (img.segments.filter isLoadable).reverse.find? (covers a) <;> rfl

end Sys2Proof.Machine
end

section
/-! SUPPORT. The proofs of the statements about two instructions in a row: a store then a load (44_stores.md R152), and LUI
then ADDI (46_upper_immediate.md R165). -/

namespace Sys2Proof.Machine

open Sys2Proof.Safety

/-! ### A store then a load -/

theorem readReg_of_writesReg {s t : State} {rd : Reg} {v : Word} (h : WritesReg s t rd v) (hrd : rd ≠ 0#5) :
    readReg t rd = v := by
  obtain ⟨reads, -⟩ := h
  rw [reads rd, if_pos ⟨rfl, hrd⟩]

/-- An instruction whose outcome is a store in bounds leaves the store's bytes in memory. -/
theorem exec_mem_of_effStore {s : State} {i : Instr} {ea v : Word} {w : Width} (he : effectOf s i = effStore s ea w v)
    (hin : InBounds s ea.toNat (widthBytes w)) :
    ∃ t, exec i s = .next t ∧ t.mem = memWrite s.mem ea.toNat (widthBytes w) v := by
  refine ⟨_, exec_eq_commit i s, ?_⟩
  rw [he, effStore, if_pos hin, commit_mem]

/-- An instruction whose outcome is a load in bounds, of bytes that a store of `v` with the same width left in memory, puts
the low bytes of `v` into its register, extended as the instruction says. -/
theorem exec_readReg_of_effLoad {s u : State} {m : Memory} {i : Instr} {rd : Reg} {ea v : Word} {w : Width}
    {ext : BitVec (8 * widthBytes w) → Word} (he : effectOf u i = effLoad u rd ea w ext) (hrd : rd ≠ 0#5)
    (hcfg : u.cfg = s.cfg) (hin : InBounds s ea.toNat (widthBytes w))
    (hmem : u.mem = memWrite m ea.toNat (widthBytes w) v) :
    ∃ x, exec i u = .next x ∧ readReg x rd = ext (v.extractLsb' 0 (8 * widthBytes w)) := by
  obtain ⟨written, -⟩ := commit_effLoad_in (s := u) (by rwa [InBounds, hcfg]) rd ext
  refine ⟨_, exec_eq_commit i u, ?_⟩
  have narrow : 8 * widthBytes w ≤ 32 := by cases w <;> decide
  rw [he, readReg_of_writesReg written hrd, hmem, memRead_memWrite, BitVec.setWidth_eq_extractLsb' narrow]

/-- Settles O6, width by width: the load reads the bytes the store wrote, because both have the effective address `ea`. -/
theorem storeThenLoadRoundTrip : Obligations.StoreThenLoadRoundTrip := by
  unfold Obligations.StoreThenLoadRoundTrip
  rintro s u rs2 rs1 rd rb imm imm' ea _ hrd rfl hload rfl hcfg
  have loads (w : Width) (ext : BitVec (8 * widthBytes w) → Word) :
      effLoad u rd (effAddr u rb imm') w ext = effLoad u rd (readReg s rs1 + imm.signExtend 32) w ext := by
    rw [hload, effAddr, imm12]
  refine ⟨fun hin => ?word, fun hin => ?half, fun hin => ?byte⟩
  case word =>
    obtain ⟨t, ht, stored⟩ := exec_mem_of_effStore (i := .sw rs2 rs1 imm) (w := .word) rfl hin
    refine ⟨t, ht, fun hmem => ?_⟩
    obtain ⟨x, hx, read⟩ :=
      exec_readReg_of_effLoad (i := .lw rd rb imm') (w := .word) (loads _ _) hrd hcfg hin (hmem.trans stored)
    exact ⟨x, hx, read.trans ((BitVec.setWidth_eq _).trans BitVec.extractLsb'_eq_self)⟩
  case half =>
    obtain ⟨t, ht, stored⟩ := exec_mem_of_effStore (i := .sh rs2 rs1 imm) (w := .half) rfl hin
    exact ⟨t, ht, fun hmem =>
      ⟨exec_readReg_of_effLoad (i := .lhu rd rb imm') (w := .half) (loads _ _) hrd hcfg hin (hmem.trans stored),
        exec_readReg_of_effLoad (i := .lh rd rb imm') (w := .half) (loads _ _) hrd hcfg hin (hmem.trans stored)⟩⟩
  case byte =>
    obtain ⟨t, ht, stored⟩ := exec_mem_of_effStore (i := .sb rs2 rs1 imm) (w := .byte) rfl hin
    exact ⟨t, ht, fun hmem =>
      ⟨exec_readReg_of_effLoad (i := .lbu rd rb imm') (w := .byte) (loads _ _) hrd hcfg hin (hmem.trans stored),
        exec_readReg_of_effLoad (i := .lb rd rb imm') (w := .byte) (loads _ _) hrd hcfg hin (hmem.trans stored)⟩⟩

/-! ### LUI then ADDI -/

/-- Two instructions that complete with the same destination register complete with the second one's value. -/
theorem retires_trans {s t u : State} {rd : Reg} {v v' next next' : Word} (h : Retires s t rd v next)
    (h' : Retires t u rd v' next') : Retires s u rd v' next' := by
  obtain ⟨⟨reads, slot⟩, -, mem, ⟨icount, quiet, cfg⟩, status, events⟩ := h
  obtain ⟨⟨reads', slot'⟩, pc', mem', ⟨icount', quiet', cfg'⟩, status', events'⟩ := h'
  refine ⟨⟨fun r => ?_, slot'.trans slot⟩, pc', fun a => (mem' a).trans (mem a),
    ⟨icount'.trans icount, quiet'.trans quiet, cfg'.trans cfg⟩, status'.trans status, events'.trans events⟩
  rw [reads' r, reads r]
  split <;> rfl

/-- What is left of a constant without its sign-extended low twelve bits is an upper immediate: those bits are taken off, and
their sign bit carries into the others. -/
theorem sub_signExtend_low_eq_immU (c : Word) :
    c - (c.extractLsb' 0 12).signExtend 32 =
      immU (c.extractLsb' 12 20 + (if c.getLsbD 11 then 1#20 else 0#20)) := by
  have low : (c.extractLsb' 0 12).toNat = c.toNat % 4096 := BitVec.extractLsb'_toNat ..
  have high : (c.extractLsb' 12 20).toNat = c.toNat / 4096 % 2 ^ 20 := by
    rw [BitVec.extractLsb'_toNat, Nat.shiftRight_eq_div_pow]
  have sign : (c.extractLsb' 0 12).msb = c.getLsbD 11 := by
    rw [BitVec.msb_eq_getLsbD_last, BitVec.getLsbD_extractLsb']
    rfl
  have bound := c.isLt
  refine BitVec.eq_of_toNat_eq ?_
  rw [BitVec.toNat_sub, BitVec.toNat_signExtend, sign, BitVec.toNat_setWidth, low, immU_toNat, BitVec.toNat_add, high]
  cases c.getLsbD 11 with
  | false =>
    simp only [Bool.false_eq_true, if_false, BitVec.toNat_ofNat]
    omega
  | true =>
    simp only [if_true, BitVec.toNat_ofNat]
    omega

theorem extractLsb'_immU_shiftRight (h : BitVec 20) : (immU h >>> 12).extractLsb' 0 20 = h := by
  refine BitVec.eq_of_toNat_eq ?_
  rw [BitVec.extractLsb'_toNat, BitVec.toNat_ushiftRight, immU_toNat, Nat.shiftRight_zero, Nat.shiftRight_eq_div_pow,
    Nat.mul_div_cancel _ (by decide), Nat.mod_eq_of_lt h.isLt]

/-- Settles O25: by `sub_signExtend_low_eq_immU` the upper immediate is the constant without its sign-extended low bits, and
ADDI adds those to what LUI left in `rd`. -/
theorem luiThenAddiBuildsEveryConstant : Obligations.LuiThenAddiBuildsEveryConstant := by
  unfold Obligations.LuiThenAddiBuildsEveryConstant
  rintro c s rd _ _ hrd rfl rfl
  rw [sub_signExtend_low_eq_immU, extractLsb'_immU_shiftRight]
  refine ⟨rfl, ?_⟩
  obtain ⟨t, ht, upper⟩ := exec_retires_of_effWrite (s := s) (i := .lui rd _) rfl
  obtain ⟨u, hu, sum⟩ := exec_retires_of_effWrite (s := t) (i := .addi rd rd (c.extractLsb' 0 12)) rfl
  refine ⟨t, u, ht, hu, ?_⟩
  have both := retires_trans upper sum
  obtain ⟨written, pc, -⟩ := upper
  rwa [readReg_of_writesReg written hrd, ← sub_signExtend_low_eq_immU, imm12, BitVec.sub_add_cancel, pc,
    BitVec.add_assoc] at both

end Sys2Proof.Machine
end
